-- ==== Sys2Proof/Word.lean ====
section
/-! DEFINITION. The two word types of the block: a byte of the stream and the 32-bit operand. -/

namespace Sys2Proof

/-- An 8-bit value: `BYTE_WIDTH = 8` (R4). -/
abbrev Byte := BitVec 8

/-- A 32-bit value: `OPERAND_WIDTH = 32` (R4), the width of `acc` (R15) and `out_operand` (R27). -/
abbrev Word := BitVec 32

end Sys2Proof
end

