-- ==== Sys2Proof/Machine/Operands.lean ====
section
/-! DEFINITION. The BitReader (40_bitreader.md) and the TwosComplementCodec (41_twos_complement.md): every field of a
byte, the length lookup, the big-endian reader and the signed reading. All are functions of their operands (R77). -/

namespace Sys2Proof.Machine

/-! ### BitReader -/

/-- `opcode(b) = b[7:6]` (R67). -/
def opcode (b : Byte) : BitVec 2 := b.extractLsb' 6 2

/-- `bit(b, n)`, bit 0 the least significant (R68). The index is a 3-bit value (D26). -/
def bit (b : Byte) (n : BitVec 3) : BitVec 1 := b.extractLsb' n.toNat 1

/-- The field `imm = b[5:0]` of a base form (R49). -/
def immediate (b : Byte) : BitVec 6 := b.extractLsb' 0 6

/-- `lengthSelector(b) = b[5:4]` (R71). -/
def lengthSelector (b : Byte) : BitVec 2 := b.extractLsb' 4 2

/-- `extOp(b) = b[3:0]` (R72). -/
def extOpOf (b : Byte) : BitVec 4 := b.extractLsb' 0 4

/-- The search behind `nextPowerOfTwo`: the first of `2^k, 2^(k+1), …` that is at least `n`, in `fuel` tries. -/
def leastPowerFrom (n : Nat) : Nat → Nat → Nat
  | 0, k => 2 ^ k
  | fuel + 1, k => if n ≤ 2 ^ k then 2 ^ k else leastPowerFrom n fuel (k + 1)

/-- `nextPowerOfTwo(n)`: 0 for 0, otherwise the smallest power of two at least `n` (R73). -/
def nextPowerOfTwo (n : Nat) : Nat := if n = 0 then 0 else leastPowerFrom n n 0

/-- The number of operand bytes a length selector gives: `byteCount = nextPowerOfTwo(sel)` (R53). -/
def operandBytes (sel : BitVec 2) : Nat := nextPowerOfTwo sel.toNat

/-- `byteCount` as the 3-bit register `byte_count` holds it (R13). -/
def operandCount (sel : BitVec 2) : BitVec 3 := BitVec.ofNat 3 (operandBytes sel)

/-- The selector whose byte count is `n`, where there is one: `sel_of` of R63. -/
def selectorOf (n : BitVec 3) : Option (BitVec 2) :=
  if n = 0#3 then some 0#2 else if n = 1#3 then some 1#2 else if n = 2#3 then some 2#2
  else if n = 4#3 then some 3#2 else none

/-- The length in bytes of an instruction, from its first byte alone (R57). -/
def instrLength (b : Byte) : Nat := if opcode b = 3#2 then 1 + operandBytes (lengthSelector b) else 1

/-- One accumulation step of `readBigEndian`: `((acc << 8) | zext_32(d)) mod 2^32` (R75). -/
def shiftIn (acc : Word) (d : Byte) : Word := (acc <<< 8) ||| d.setWidth 32

/-- `readBigEndian` over bytes already at hand, most significant first (R74); no bytes give 0. -/
def readBigEndian (ds : List Byte) : Word := ds.foldl shiftIn 0#32

/-- `BE_n(x)`: the low `n` bytes of `x`, most significant first (R63). -/
def bigEndianBytes : Nat → Word → List Byte
  | 0, _ => []
  | n + 1, x => (x >>> (8 * n)).setWidth 8 :: bigEndianBytes n x

/-! ### TwosComplementCodec -/

/-- `toSigned(u, L)`, the source's own algorithm over the integers (R78), and 0 for `L = 0` (R79). Defined for every
`u` and `L`; R82 gives the domain `L ≤ 32` and R83 leaves `u ≥ 2^L` to the literal reading, which this is. -/
def toSigned (u L : Nat) : Int :=
  if L = 0 then 0
  else if u.testBit (L - 1) then -(2 : Int) ^ (L - 1) + ((u &&& (2 ^ (L - 1) - 1) : Nat) : Int)
  else (u : Int)

/-- `int32(z)`: the 32-bit two's-complement vector of the integer `z` (R6). -/
def int32 (z : Int) : Word := BitVec.ofInt 32 z

/-- The signed reading of a 6-bit immediate: `toSigned(imm, 6)` (R54). -/
def signedImmediate (imm : BitVec 6) : Int := toSigned imm.toNat 6

/-- `signed6(b)` (R69). -/
def signed6 (b : Byte) : Int := signedImmediate (immediate b)

/-- `unsigned6(b) = b & 0x3F` (R70). -/
def unsigned6 (b : Byte) : Nat := (immediate b).toNat

/-- The operand of an extended form, `int32(toSigned(raw, 8*byteCount))` (R56, R91). -/
def operandValue (sel : BitVec 2) (raw : Word) : Word := int32 (toSigned raw.toNat (8 * operandBytes sel))

end Sys2Proof.Machine
end

