-- ==== Sys2Proof/Syntax.lean ====
section
/-! DEFINITION. The encoded instructions: one constructor per row of spec/opcode_table.json. -/

namespace Sys2Proof

/-- An encoded instruction of the stream, complete with its operand bytes (R48 to R50).

A base form carries its 6-bit immediate `b[5:0]`. An extended form carries its length selector `sel = b[5:4]` and
`raw`, the unsigned big-endian value of its operand bytes (R56), zero-extended to 32 bits. A form whose operand is
ignored carries it all the same: the bytes are part of the encoding (R59). -/
inductive Instr where
  /-- MOVEX, `00dddddd` (R102). -/
  | movex (imm : BitVec 6)
  /-- MOVEY, `01dddddd` (R103). -/
  | movey (imm : BitVec 6)
  /-- WAIT, `10uuuuuu` (R104). -/
  | wait (imm : BitVec 6)
  /-- EXT.MOVEX, `11ss0000` and its operand bytes (R105). -/
  | extMovex (sel : BitVec 2) (raw : Word)
  /-- EXT.MOVEY, `11ss0001` and its operand bytes (R106). -/
  | extMovey (sel : BitVec 2) (raw : Word)
  /-- EXT.WAIT, `11ss0010` and its operand bytes (R107). -/
  | extWait (sel : BitVec 2) (raw : Word)
  /-- EXT.TOGGLEPEN, `11ss0011` and its ignored operand bytes (R108). -/
  | extTogglePen (sel : BitVec 2) (raw : Word)
  /-- EXT.CLEAR, `11ss0100` and its ignored operand bytes (R109). -/
  | extClear (sel : BitVec 2) (raw : Word)
  /-- EXT.SHOWANDWAIT, `11ss0101` and its ignored operand bytes (R110). -/
  | extShowAndWait (sel : BitVec 2) (raw : Word)
  /-- EXT.SETCOLOUR, `11ss0110` and its operand bytes (R111). -/
  | extSetColour (sel : BitVec 2) (raw : Word)
  /-- UNRECOGNIZED_EXT, the row `11ss0111` and its ignored operand bytes (R112). -/
  | unrecognizedExt7 (sel : BitVec 2) (raw : Word)
  /-- UNRECOGNIZED_EXT, the row `11ss1xxx` (`low = xxx`) and its ignored operand bytes (R112). -/
  | unrecognizedExt8 (low : BitVec 3) (sel : BitVec 2) (raw : Word)
  deriving DecidableEq, Repr

end Sys2Proof
end

