-- ==== Sys2Proof/WellFormed.lean ====
section
/-! DEFINITION. Which instruction terms have an encoding: the operand must fit its bytes. -/

namespace Sys2Proof

/-- The raw operand fits the bytes its selector gives it: `raw < 2^(8*byteCount)`, so 0 for a selector of 0 (R56). -/
def operandFits (sel : BitVec 2) (raw : Word) : Bool :=
  decide (raw.toNat < 2 ^ (8 * Machine.operandBytes sel))

/-- A term of `Instr` that some bytes encode. -/
def Instr.wellFormed : Instr → Bool
  | .movex _ => true
  | .movey _ => true
  | .wait _ => true
  | .extMovex sel raw => operandFits sel raw
  | .extMovey sel raw => operandFits sel raw
  | .extWait sel raw => operandFits sel raw
  | .extTogglePen sel raw => operandFits sel raw
  | .extClear sel raw => operandFits sel raw
  | .extShowAndWait sel raw => operandFits sel raw
  | .extSetColour sel raw => operandFits sel raw
  | .unrecognizedExt7 sel raw => operandFits sel raw
  | .unrecognizedExt8 _ sel raw => operandFits sel raw

end Sys2Proof
end

