-- ==== Sys2Proof/Decode.lean ====
section
/-! DEFINITION. The wire format (30_encoding.md): bytes to instruction, and after it instruction to bytes. -/

namespace Sys2Proof

/-- Why a list of bytes begins with no complete instruction. Every first byte has a decode (R60), so these are the
only two reasons. -/
inductive DecodeError where
  /-- There is no first byte: end-of-stream at an opcode read (R86). -/
  | endOfStream
  /-- The list ends inside the operand of an extended form (R76, R90). -/
  | truncatedOperand
  deriving DecidableEq, Repr

/-- The base form of a byte whose opcode is 0, 1 or 2 (R51, R88); none for the escape opcode. -/
def baseInstr (b : Byte) : Option Instr :=
  let imm := Machine.immediate b
  if Machine.opcode b = 0#2 then some (.movex imm)
  else if Machine.opcode b = 1#2 then some (.movey imm)
  else if Machine.opcode b = 2#2 then some (.wait imm)
  else none

/-- The extended form with extended opcode `x` (R52): 0 to 6 named, 7 to 15 unrecognized (R58). -/
def extInstr (x : BitVec 4) (sel : BitVec 2) (raw : Word) : Instr :=
  if x = 0#4 then .extMovex sel raw
  else if x = 1#4 then .extMovey sel raw
  else if x = 2#4 then .extWait sel raw
  else if x = 3#4 then .extTogglePen sel raw
  else if x = 4#4 then .extClear sel raw
  else if x = 5#4 then .extShowAndWait sel raw
  else if x = 6#4 then .extSetColour sel raw
  else if x = 7#4 then .unrecognizedExt7 sel raw
  else .unrecognizedExt8 (x.extractLsb' 0 3) sel raw

/-- The first instruction of a list of bytes, with the bytes after it: the length from the first byte alone (R57),
the operand bytes big-endian (R41). Total: a list with no complete instruction is rejected by name. -/
def decode : List Byte → Except DecodeError (Instr × List Byte)
  | [] => .error .endOfStream
  | b :: rest =>
    match baseInstr b with
    | some i => .ok (i, rest)
    | none =>
      let sel := Machine.lengthSelector b
      let n := Machine.operandBytes sel
      if rest.length < n then .error .truncatedOperand
      else .ok (extInstr (Machine.extOpOf b) sel (Machine.readBigEndian (rest.take n)), rest.drop n)

/-- Format B: a 2-bit opcode and a 6-bit immediate (R49). -/
def baseByte (op : BitVec 2) (imm : BitVec 6) : Byte := op ++ imm

/-- The escape byte of format X: `11 sel xop` (R50). -/
def escapeByte (x : BitVec 4) (sel : BitVec 2) : Byte := 3#2 ++ sel ++ x

/-- Format X: the escape byte and the big-endian operand bytes (R50). -/
def encodeExt (x : BitVec 4) (sel : BitVec 2) (raw : Word) : List Byte :=
  escapeByte x sel :: Machine.bigEndianBytes (Machine.operandBytes sel) raw

/-- The bytes of a well-formed instruction, from the encoding tables of R49 to R52. -/
def encode : Instr → List Byte
  | .movex imm => [baseByte 0#2 imm]
  | .movey imm => [baseByte 1#2 imm]
  | .wait imm => [baseByte 2#2 imm]
  | .extMovex sel raw => encodeExt 0#4 sel raw
  | .extMovey sel raw => encodeExt 1#4 sel raw
  | .extWait sel raw => encodeExt 2#4 sel raw
  | .extTogglePen sel raw => encodeExt 3#4 sel raw
  | .extClear sel raw => encodeExt 4#4 sel raw
  | .extShowAndWait sel raw => encodeExt 5#4 sel raw
  | .extSetColour sel raw => encodeExt 6#4 sel raw
  | .unrecognizedExt7 sel raw => encodeExt 7#4 sel raw
  | .unrecognizedExt8 low sel raw => encodeExt (1#1 ++ low) sel raw

/-- The bytes of an instruction whose bits are `w`, numbered as spec/opcode_table.json numbers them: the first byte is
bits 7 to 0, the second bits 15 to 8, and so on; bits at `nbits` and above are 0. Five bytes, the longest form (R48). -/
def tableBytes (nbits w : Nat) : List Byte :=
  let v := w % 2 ^ nbits
  [BitVec.ofNat 8 v, BitVec.ofNat 8 (v / 2 ^ 8), BitVec.ofNat 8 (v / 2 ^ 16), BitVec.ofNat 8 (v / 2 ^ 24),
    BitVec.ofNat 8 (v / 2 ^ 32)]

/-- The instruction the decoder reads from a word of the opcode table. -/
def decodeTableWord (nbits w : Nat) : Option Instr :=
  match decode (tableBytes nbits w) with
  | .ok (i, _) => some i
  | .error _ => none

end Sys2Proof
end

