-- ==== Sys2Proof/Machine/State.lean ====
section
/-! DEFINITION. The state of the block (10_state.md), what its three environment agents hold (R152), and the names of
the two ways a step can stop. -/

namespace Sys2Proof.Machine

/-- The state of the escape-sequence state machine (R11). -/
inductive St where
  | fetch
  | operand
  | halted
  | faulted
  deriving DecidableEq, Repr

/-- The kinds of fatal error, with NONE (R18). The type leaves out the value 3, which is never produced (I21). -/
inductive ErrKind where
  | none
  | truncatedStream
  | unrecognizedExtendedOpcode
  deriving DecidableEq, Repr

/-- The kinds of Instruction, as `out_kind` names them (R26). The type leaves out the value 7, never produced (I22). -/
inductive OutKind where
  | moveX
  | moveY
  | wait
  | togglePen
  | clear
  | showAndWait
  | setColour
  deriving DecidableEq, Repr

/-- A decoded Instruction, the output value of the block (R8): a tagged union whose integer field is a 32-bit
two's-complement value. It does not say which form it came from (R26). -/
inductive Instruction where
  | moveX (delta : Word)
  | moveY (delta : Word)
  | wait (duration : Word)
  | togglePen
  | clear
  | showAndWait
  | setColour (value : Word)
  deriving DecidableEq, Repr

/-- The output holding register `out` (R25). -/
structure OutReg where
  valid : Bool
  kind : OutKind
  operand : Word
  deriving DecidableEq, Repr

/-- What the environment drives at one clock edge (R31, R152). The event itself is what the source holds at `pos`. -/
structure Pins where
  /-- `rst`: asserted where it is `some stream`, `stream` being what the producer presents from then on (R140, R143). -/
  rst : Option (List Byte)
  /-- `in_valid`: the producer presents its next event; otherwise it stalls (R28). -/
  inValid : Bool
  /-- `out_ready`: the consumer takes the Instruction on offer (R32). -/
  outReady : Bool
  deriving DecidableEq, Repr

/-- The environment's schedule: the pins of the coming edges, one entry an edge, and those of every later edge. -/
structure Env where
  queue : List Pins
  rest : Pins
  deriving DecidableEq, Repr

/-- Agents that never wait and never reset: every event and every Instruction is taken at once. -/
def Pins.eager : Pins := { rst := none, inValid := true, outReady := true }

/-- The environment of eager agents. -/
def Env.eager : Env := { queue := [], rest := Pins.eager }

/-- The state of the block, with what its environment holds. -/
structure State where
  /-- State of the escape-sequence state machine (R11). -/
  st : St
  /-- Extended opcode of the latest escape byte (R12). -/
  extOp : BitVec 4
  /-- Operand byte count of the latest escape byte (R13). -/
  byteCount : BitVec 3
  /-- Operand bytes not yet read (R14). -/
  remaining : BitVec 3
  /-- Big-endian accumulator (R15). -/
  acc : Word
  /-- Offset of the first byte of the instruction being decoded (R16). -/
  instStart : Nat
  /-- Offset of the next byte to be read (R17). -/
  pos : Nat
  /-- The fatal error, if any (R18). -/
  errKind : ErrKind
  /-- The offset reported with a fatal error (R19). -/
  errOffset : Nat
  /-- The output holding register (R25 to R27). -/
  out : OutReg
  /-- The producer's byte stream `S`, whole, by offset (R35). Not state of the block (R10). -/
  source : List Byte
  /-- The Instructions the consumer has taken since reset, in order (R25, R153). Not state of the block (R10). -/
  delivered : List Instruction
  /-- What the environment drives at the coming edges (R152). Not state of the block. -/
  env : Env
  deriving DecidableEq, Repr

/-- The machine after reset: R29's value for every element of the block. The stream is empty until the producer's is
loaded, nothing has been delivered and the agents are eager (log entries 2, 3 and 4). -/
def State.reset : State where
  st := .fetch
  extOp := 0#4
  byteCount := 0#3
  remaining := 0#3
  acc := 0#32
  instStart := 0
  pos := 0
  errKind := .none
  errOffset := 0
  out := { valid := false, kind := .moveX, operand := 0#32 }
  source := []
  delivered := []
  env := Env.eager

/-- Why a step stops the model. The fatal errors of the block are not here: they are the state FAULTED (R125). -/
inductive Fault where
  /-- Raised by `acceptByte` when the last operand byte arrives and `byte_count` is none of 1, 2, 4: R13 gives no such
  register value a meaning. Safe: no state that satisfies R30 raises it. -/
  | byteCountOutOfRange
  deriving DecidableEq, Repr

/-- Why the model gives an instruction no meaning. -/
inductive Refusal where
  /-- Raised by an arm of `exec` that has no meaning yet; none is left. Safe: the model stops. -/
  | notModelled (mnemonic : String)
  deriving DecidableEq, Repr

end Sys2Proof.Machine
end

