-- ==== Sys2Proof/Machine/Ops.lean ====
section
/-! DEFINITION. The named operations on the state: reading the byte source, the register writes of the step function
(R85), emitting, taking a fault, and reset, which is the only way out of one. -/

namespace Sys2Proof.Machine

/-! ### The byte source -/

/-- An event of the byte source (R28). -/
inductive Event where
  | byte (b : Byte)
  | eos
  deriving DecidableEq, Repr

/-- The event at offset `pos` of a stream: its byte, or `EOS` where no byte is left (R35). -/
def eventAt (source : List Byte) (pos : Nat) : Event :=
  match source[pos]? with
  | some b => .byte b
  | none => .eos

/-- `ReadByte()` at the current offset (R36). The step that takes the byte advances `pos`. -/
def State.readEvent (s : State) : Event := eventAt s.source s.pos

/-! ### The environment's schedule -/

/-- The pins of the present edge. -/
def Env.now (e : Env) : Pins := e.queue.headD e.rest

/-- The schedule from the next edge on. -/
def Env.later (e : Env) : Env := { e with queue := e.queue.tail }

/-- The edge has passed for the environment; no register of the block changes. -/
def State.tick (s : State) : State := { s with env := s.env.later }

/-! ### Register writes of the step function (R85) -/

/-- An opcode byte is read in FETCH: `inst_start <- pos; pos <- pos + 1` (R85, R102). -/
def State.takeOpcode (s : State) : State := { s with instStart := s.pos, pos := s.pos + 1 }

/-- An escape byte is latched: `ext_op`, `byte_count`, `remaining` and `acc`, after the writes of every opcode byte
(R85, R87). -/
def State.latchEscape (x : BitVec 4) (sel : BitVec 2) (s : State) : State :=
  { s.takeOpcode with extOp := x, byteCount := operandCount sel, remaining := operandCount sel, acc := 0#32 }

/-- An escape byte with operand bytes to come: latched, and the operand is awaited (R84, R87). -/
def State.awaitOperand (x : BitVec 4) (sel : BitVec 2) (s : State) : State :=
  { s.latchEscape x sel with st := .operand }

/-- An operand byte is read, `a` being the accumulator with it: `pos`, `acc`, `remaining` (R85, R89). -/
def State.takeOperand (a : Word) (s : State) : State :=
  { s with pos := s.pos + 1, acc := a, remaining := s.remaining - 1#3 }

/-- The register writes of the step that reads the last byte of an extended form, before it dispatches: the escape
byte itself where there are no operand bytes (R92), otherwise the last operand byte, which completes `raw` (R89). -/
def State.takeLast (x : BitVec 4) (sel : BitVec 2) (raw : Word) (s : State) : State :=
  if sel = 0#2 then s.latchEscape x sel else s.takeOperand raw

/-! ### Output -/

/-- The kind of an Instruction (R26). -/
def Instruction.kind : Instruction → OutKind
  | .moveX _ => .moveX
  | .moveY _ => .moveY
  | .wait _ => .wait
  | .togglePen => .togglePen
  | .clear => .clear
  | .showAndWait => .showAndWait
  | .setColour _ => .setColour

/-- What `out_operand` shows for an Instruction: its field, or 0 for a kind without one (R27). -/
def Instruction.operand : Instruction → Word
  | .moveX d => d
  | .moveY d => d
  | .wait u => u
  | .togglePen => 0#32
  | .clear => 0#32
  | .showAndWait => 0#32
  | .setColour v => v

/-- The Instruction a consumer reads from `out`; the operand of a kind without one is not read (R27). -/
def OutReg.instruction (o : OutReg) : Instruction :=
  match o.kind with
  | .moveX => .moveX o.operand
  | .moveY => .moveY o.operand
  | .wait => .wait o.operand
  | .togglePen => .togglePen
  | .clear => .clear
  | .showAndWait => .showAndWait
  | .setColour => .setColour o.operand

/-- `Emit(i)`: `out` is loaded, `out_valid` set, and the block is back in FETCH (R25 to R27, R85). -/
def State.emit (v : Instruction) (s : State) : State :=
  { s with st := .fetch, out := { valid := true, kind := v.kind, operand := v.operand } }

/-- The consumer takes the Instruction in `out`: `out_valid` becomes 0 (R32). -/
def State.deliver (s : State) : State :=
  { s with delivered := s.delivered ++ [s.out.instruction], out := { s.out with valid := false } }

/-! ### Halt, fault, reset -/

/-- `Halt()`: end-of-stream at an opcode read, the normal end (R86). -/
def State.halt (s : State) : State := { s with st := .halted }

/-- `Fault(k, off)`: taking a fatal error. It writes `st`, `err_kind` and `err_offset`, nothing else; there is no
vector, no saved context and no handler (R133). -/
def State.raiseFault (k : ErrKind) (off : Nat) (s : State) : State :=
  { s with st := .faulted, errKind := k, errOffset := off }

/-- Reset (R140): every element of the block takes its value of R29. There is no return from a fault (R134); this is
the only way out of HALTED and FAULTED. Work in progress and an Instruction not yet taken are dropped (R141). The
producer presents `stream` from its first byte, and a new run's deliveries begin (R143, R153). -/
def State.restart (stream : List Byte) (s : State) : State :=
  { State.reset with source := stream, env := s.env }

/-- `EOS` taken: a halt in FETCH (R86), TruncatedStream in OPERAND (R90). No event is taken elsewhere (R93). -/
def State.takeEos (s : State) : State :=
  match s.st with
  | .fetch => s.halt
  | .operand => s.raiseFault .truncatedStream s.instStart
  | .halted => s
  | .faulted => s

end Sys2Proof.Machine
end

