-- ==== Sys2Proof/Machine/Base.lean ====
section
/-! DEFINITION. The base-form instructions (43_base_instructions.md): MOVEX, MOVEY, WAIT. Each is one byte, and the
step that reads it emits. -/

namespace Sys2Proof.Machine

/-- MOVEX (R102): emits MoveX with the signed immediate. -/
def execMovex (imm : BitVec 6) (s : State) : Host.Outcome State Fault Refusal :=
  .next (s.takeOpcode.emit (.moveX (int32 (signedImmediate imm))))

/-- MOVEY (R103): emits MoveY with the signed immediate. -/
def execMovey (imm : BitVec 6) (s : State) : Host.Outcome State Fault Refusal :=
  .next (s.takeOpcode.emit (.moveY (int32 (signedImmediate imm))))

/-- WAIT (R104): emits Wait with the unsigned immediate. -/
def execWait (imm : BitVec 6) (s : State) : Host.Outcome State Fault Refusal :=
  .next (s.takeOpcode.emit (.wait (imm.setWidth 32)))

end Sys2Proof.Machine
end

