-- ==== Sys2Proof/Machine/Extended.lean ====
section
/-! DEFINITION. The extended-form instructions (44_extended_instructions.md). A meaning is the step that reads the
form's last byte and dispatches (R91, R113); the steps before it, which only gather bytes, and a stream that ends
among them are in Machine/Fetch.lean, since the instruction is known only when it is complete. -/

namespace Sys2Proof.Machine

/-- EXT.MOVEX (R105): emits MoveX with the signed operand. -/
def execExtMovex (sel : BitVec 2) (raw : Word) (s : State) : Host.Outcome State Fault Refusal :=
  .next ((s.takeLast 0#4 sel raw).emit (.moveX (operandValue sel raw)))

/-- EXT.MOVEY (R106): emits MoveY with the signed operand. -/
def execExtMovey (sel : BitVec 2) (raw : Word) (s : State) : Host.Outcome State Fault Refusal :=
  .next ((s.takeLast 1#4 sel raw).emit (.moveY (operandValue sel raw)))

/-- EXT.WAIT (R107): emits Wait with the signed operand; a negative duration passes through (D25). -/
def execExtWait (sel : BitVec 2) (raw : Word) (s : State) : Host.Outcome State Fault Refusal :=
  .next ((s.takeLast 2#4 sel raw).emit (.wait (operandValue sel raw)))

/-- EXT.TOGGLEPEN (R108): emits TogglePen; the operand is ignored. -/
def execExtTogglePen (sel : BitVec 2) (raw : Word) (s : State) : Host.Outcome State Fault Refusal :=
  .next ((s.takeLast 3#4 sel raw).emit .togglePen)

/-- EXT.CLEAR (R109): emits Clear; the operand is ignored. -/
def execExtClear (sel : BitVec 2) (raw : Word) (s : State) : Host.Outcome State Fault Refusal :=
  .next ((s.takeLast 4#4 sel raw).emit .clear)

/-- EXT.SHOWANDWAIT (R110): emits ShowAndWait; the operand is ignored and the block does not wait. -/
def execExtShowAndWait (sel : BitVec 2) (raw : Word) (s : State) : Host.Outcome State Fault Refusal :=
  .next ((s.takeLast 5#4 sel raw).emit .showAndWait)

/-- EXT.SETCOLOUR (R111): emits SetColour with the signed operand. -/
def execExtSetColour (sel : BitVec 2) (raw : Word) (s : State) : Host.Outcome State Fault Refusal :=
  .next ((s.takeLast 6#4 sel raw).emit (.setColour (operandValue sel raw)))

/-- The dispatch of an unrecognized extended opcode `x` (R112): the last byte is read as for any form, and the fault
is taken with the offset of the escape byte, the new `inst_start`. -/
def State.dispatchUnrecognized (x : BitVec 4) (sel : BitVec 2) (raw : Word) (s : State) : State :=
  (s.takeLast x sel raw).raiseFault .unrecognizedExtendedOpcode (s.takeLast x sel raw).instStart

/-- UNRECOGNIZED_EXT, extended opcode 7 (R112). -/
def execUnrecognizedExt7 (sel : BitVec 2) (raw : Word) (s : State) : Host.Outcome State Fault Refusal :=
  .next (s.dispatchUnrecognized 7#4 sel raw)

/-- UNRECOGNIZED_EXT, extended opcodes 8 to 15, `1xxx` (R112). -/
def execUnrecognizedExt8 (low : BitVec 3) (sel : BitVec 2) (raw : Word) (s : State) :
    Host.Outcome State Fault Refusal :=
  .next (s.dispatchUnrecognized (1#1 ++ low) sel raw)

end Sys2Proof.Machine
end

