-- ==== Sys2Proof/Machine/Dispatch.lean ====
section
/-! DEFINITION. exec: one arm per encoded instruction, each a direct call of its meaning. -/

namespace Sys2Proof.Machine

def exec (i : Instr) (s : State) : Host.Outcome State Fault Refusal :=
  match i with
  -- base forms (R102 to R104)
  | .movex imm => Sys2Proof.Machine.execMovex imm s
  | .movey imm => Sys2Proof.Machine.execMovey imm s
  | .wait imm => Sys2Proof.Machine.execWait imm s
  -- extended forms (R105 to R111)
  | .extMovex sel raw => Sys2Proof.Machine.execExtMovex sel raw s
  | .extMovey sel raw => Sys2Proof.Machine.execExtMovey sel raw s
  | .extWait sel raw => Sys2Proof.Machine.execExtWait sel raw s
  | .extTogglePen sel raw => Sys2Proof.Machine.execExtTogglePen sel raw s
  | .extClear sel raw => Sys2Proof.Machine.execExtClear sel raw s
  | .extShowAndWait sel raw => Sys2Proof.Machine.execExtShowAndWait sel raw s
  | .extSetColour sel raw => Sys2Proof.Machine.execExtSetColour sel raw s
  -- unrecognized extended opcodes (R112)
  | .unrecognizedExt7 sel raw => Sys2Proof.Machine.execUnrecognizedExt7 sel raw s
  | .unrecognizedExt8 low sel raw => Sys2Proof.Machine.execUnrecognizedExt8 low sel raw s

end Sys2Proof.Machine
end

