-- ==== Sys2Proof/Config.lean ====
section
/-! DEFINITION. What an implementation of the block fixes and the spec leaves open: one parameter. -/

namespace Sys2Proof

/-- `OFFSET_WIDTH` of R4, OPEN in the spec (D14, I7): the width of the offset counters of a
register-transfer implementation. It has no body: nothing can be proved of its value. Only the reported offsets
(`Machine.reportedOffset`) use it; the counters of the model are natural numbers, as R17 says. Log entry 1. -/
opaque Config.offsetWidth : Nat

end Sys2Proof
end

