-- ==== Sys2Proof/Machine/Flags.lean ====
section
/-! DEFINITION. The block has no condition flags (R22). What it shows instead are views of its state with no storage of
their own: the status (R20), `in_ready` (R33), the codes of the named values, and the output ports (R31, R34). -/

namespace Sys2Proof.Machine

/-- The number of a state (R11). -/
def St.code : St → BitVec 2
  | .fetch => 0#2
  | .operand => 1#2
  | .halted => 2#2
  | .faulted => 3#2

/-- The number of an error kind (R18). -/
def ErrKind.code : ErrKind → BitVec 2
  | .none => 0#2
  | .truncatedStream => 1#2
  | .unrecognizedExtendedOpcode => 2#2

/-- The number of an Instruction kind (R26). -/
def OutKind.code : OutKind → BitVec 3
  | .moveX => 0#3
  | .moveY => 1#3
  | .wait => 2#3
  | .togglePen => 3#3
  | .clear => 4#3
  | .showAndWait => 5#3
  | .setColour => 6#3

/-- `halted = (st == HALTED)` (R20). -/
def State.isHalted (s : State) : Bool := s.st == .halted

/-- `faulted = (st == FAULTED)` (R20). -/
def State.isFaulted (s : State) : Bool := s.st == .faulted

/-- `busy_in_operand = (st == OPERAND)` (R20). -/
def State.busyInOperand (s : State) : Bool := s.st == .operand

/-- `in_ready = (st == FETCH or st == OPERAND) and (out_valid == 0)` (R33). -/
def State.inReady (s : State) : Bool := (s.st == .fetch || s.st == .operand) && !s.out.valid

/-- An offset as a register-transfer implementation reports it: modulo `2^OFFSET_WIDTH` (R17). -/
def reportedOffset (k : Nat) : Nat := k % 2 ^ Config.offsetWidth

/-- The output ports of the block (R31). -/
structure Ports where
  inReady : Bool
  outValid : Bool
  outKind : BitVec 3
  outOperand : Word
  halted : Bool
  faulted : Bool
  errKind : BitVec 2
  errOffset : Nat
  pos : Nat
  deriving DecidableEq, Repr

/-- What the ports show in a state (R31, R34). -/
def State.ports (s : State) : Ports where
  inReady := s.inReady
  outValid := s.out.valid
  outKind := s.out.kind.code
  outOperand := s.out.operand
  halted := s.isHalted
  faulted := s.isFaulted
  errKind := s.errKind.code
  errOffset := reportedOffset s.errOffset
  pos := reportedOffset s.pos

end Sys2Proof.Machine
end

