-- ==== Sys2Proof/Machine/Fetch.lean ====
section
/-! DEFINITION. One clock edge up to the point where an instruction is complete: reset, delivery, stalls, end-of-stream,
and the gathering of an instruction's bytes (42_decoder_fsm.md, and 10_state.md R31 to R33). -/

namespace Sys2Proof.Machine

/-- What an edge comes to. -/
inductive Phase where
  /-- The edge is done, and no instruction was completed by it. -/
  | moved (s : State)
  /-- The byte at `pos` completes instruction `i`: the block dispatches it in `s`. -/
  | run (i : Instr) (s : State)
  /-- The registers have no meaning in the spec. -/
  | stop (f : Fault)
  deriving DecidableEq, Repr

/-- A byte taken in FETCH (R87, R88, R92). A base byte, or an escape byte with selector 0, is a complete instruction;
any other escape byte is latched and its operand awaited. -/
def State.fetchByte (b : Byte) (s : State) : Phase :=
  match baseInstr b with
  | some i => .run i s
  | none =>
    if lengthSelector b = 0#2 then .run (extInstr (extOpOf b) 0#2 0#32) s
    else .moved (s.awaitOperand (extOpOf b) (lengthSelector b))

/-- A byte taken in OPERAND (R89, R91). The last one completes the instruction that `ext_op`, `byte_count` and the
accumulator make; an earlier one is shifted in. -/
def State.operandByte (d : Byte) (s : State) : Phase :=
  if s.remaining = 1#3 then
    match selectorOf s.byteCount with
    | none => .stop .byteCountOutOfRange
    | some sel =>
      if sel = 0#2 then .stop .byteCountOutOfRange else .run (extInstr s.extOp sel (shiftIn s.acc d)) s
  else .moved (s.takeOperand (shiftIn s.acc d))

/-- A byte taken, by state; HALTED and FAULTED take none (R93). -/
def State.acceptByte (b : Byte) (s : State) : Phase :=
  match s.st with
  | .fetch => s.fetchByte b
  | .operand => s.operandByte b
  | .halted => .moved s
  | .faulted => .moved s

/-- The event at `pos` taken (R85). -/
def State.accept (s : State) : Phase :=
  match s.readEvent with
  | .byte b => s.acceptByte b
  | .eos => .moved s.takeEos

/-- One edge. Reset comes first (R140: no event is taken then). An Instruction on offer goes to the consumer when it
is ready and blocks the input otherwise (R32, R33, R147). Else the presented event is taken when `in_ready` is 1; a
stall, and the states HALTED and FAULTED, change nothing (R93, R100). -/
def State.edge (s : State) : Phase :=
  match s.env.now.rst with
  | some stream => .moved (s.tick.restart stream)
  | none =>
    if s.out.valid then .moved (if s.env.now.outReady then s.tick.deliver else s.tick)
    else if s.env.now.inValid && s.inReady then s.tick.accept
    else .moved s.tick

/-! ### Placing an instruction where the machine reads next -/

/-- The non-completing move of a byte, where it is one. -/
def State.absorb (s : State) (b : Byte) : State :=
  match s.acceptByte b with
  | .moved t => t
  | .run _ _ => s
  | .stop _ => s

/-- The stream with `bytes` at offset `pos`, every other byte kept (bytes missing before `pos` are 0). -/
def overwriteAt (source : List Byte) (pos : Nat) (bytes : List Byte) : List Byte :=
  source.take pos ++ List.replicate (pos - source.length) 0#8 ++ bytes ++ source.drop (pos + bytes.length)

/-- `s` at the point where the very next step reads the last byte of the instruction that `bytes` begin with: the
instruction stands in the stream at `pos`, the block is in FETCH with nothing on offer and eager agents, and the bytes
before the last have been read. Log entry 5. -/
def State.placeBytes (bytes : List Byte) (s : State) : State :=
  match bytes with
  | [] => s
  | b :: _ =>
    let instr := bytes.take (instrLength b)
    instr.dropLast.foldl State.absorb
      { s with st := .fetch, remaining := 0#3, errKind := .none, out := { s.out with valid := false },
               source := overwriteAt s.source s.pos instr, env := Env.eager }

end Sys2Proof.Machine
end

