-- ==== Sys2Proof/Machine/Step.lean ====
section
/-! DEFINITION. One step of the machine: one clock edge with the pins of that edge, at most one event, at most one
output (R9, R32). -/

namespace Sys2Proof.Machine

/-- One step: the edge, and where it completes an instruction, that instruction's meaning. -/
def step (s : State) : Host.Outcome State Fault Refusal :=
  match s.edge with
  | .moved t => .next t
  | .run i t => exec i t
  | .stop f => .fault f

/-- `s` with the instruction of a word of the opcode table where the next step reads: that step runs it. -/
def State.withFetchWord (s : State) (nbits w : Nat) : State := s.placeBytes (tableBytes nbits w)

end Sys2Proof.Machine
end

