-- ==== Sys2Proof/Machine/Canonical.lean ====
section
/-! DEFINITION. The canonical encoder of R63 and the pseudo-instructions of R62. They are outside the block; the round
trip of R65 is stated with them. -/

namespace Sys2Proof.Machine

/-- `fits(v, n)` of R63: `v` is in the signed range of `8n` bits. -/
def fits (v : Int) (n : Nat) : Bool :=
  if n = 0 then decide (v = 0) else decide (-(2 : Int) ^ (8 * n - 1) ≤ v ∧ v ≤ (2 : Int) ^ (8 * n - 1) - 1)

/-- The selector of the shortest extended form that holds `v`: the least of 0, 1, 2, 4 bytes that fits (R63). Four
bytes hold every 32-bit value. -/
def shortestSelector (v : Int) : BitVec 2 :=
  if fits v 0 then 0#2 else if fits v 1 then 1#2 else if fits v 2 then 2#2 else 3#2

/-- `ext(x, v)` of R63: the raw operand is `v mod 2^(8n)`. -/
def canonicalExt (x : BitVec 4) (v : Word) : List Byte :=
  let sel := shortestSelector v.toInt
  encodeExt x sel (BitVec.ofInt 32 (v.toInt % 2 ^ (8 * operandBytes sel)))

/-- `enc`, the canonical encoder (R63): the base form where it fits, otherwise the shortest extended form. -/
def canonical : Instruction → List Byte
  | .moveX d =>
    if -32 ≤ d.toInt ∧ d.toInt ≤ 31 then [baseByte 0#2 (BitVec.ofInt 6 (d.toInt % 64))] else canonicalExt 0#4 d
  | .moveY d =>
    if -32 ≤ d.toInt ∧ d.toInt ≤ 31 then [baseByte 1#2 (BitVec.ofInt 6 (d.toInt % 64))] else canonicalExt 1#4 d
  | .wait u =>
    if 0 ≤ u.toInt ∧ u.toInt ≤ 63 then [baseByte 2#2 (BitVec.ofInt 6 u.toInt)] else canonicalExt 2#4 u
  | .togglePen => [0xC3#8]
  | .clear => [0xC4#8]
  | .showAndWait => [0xC5#8]
  | .setColour v => canonicalExt 6#4 v

/-- The pseudo-instructions of R62. -/
inductive Pseudo where
  | dx (d : Word)
  | dy (d : Word)
  | pause (u : Word)
  | pen
  | clear
  | key
  | colour (v : Word)
  deriving DecidableEq, Repr

/-- The Instruction a pseudo-instruction stands for; it expands to that Instruction's canonical encoding (R62). -/
def Pseudo.instruction : Pseudo → Instruction
  | .dx d => .moveX d
  | .dy d => .moveY d
  | .pause u => .wait u
  | .pen => .togglePen
  | .clear => .clear
  | .key => .showAndWait
  | .colour v => .setColour v

/-- The bytes a pseudo-instruction expands to (R62). -/
def Pseudo.expand (p : Pseudo) : List Byte := canonical p.instruction

end Sys2Proof.Machine
end

