-- ==== Sys2Proof/Machine/Consumer.lean ====
section
/-! DEFINITION. The reference consumer (45_reference_consumer.md): a reducer over the Instructions the block delivers.
It is outside the block (R3), informative, and nothing of the machine imports it. -/

namespace Sys2Proof.Machine

/-- A position; consumer arithmetic is over the integers (R115). -/
structure Point where
  x : Int
  y : Int
  deriving DecidableEq, Repr

/-- The state of the consumer (R114). -/
structure PlotterState where
  penDown : Bool
  current : Point
  last : Point
  deriving DecidableEq, Repr

/-- The initial consumer state (R114). -/
def PlotterState.initial : PlotterState := { penDown := false, current := ⟨0, 0⟩, last := ⟨0, 0⟩ }

/-- A request to the drawing surface. -/
inductive Effect where
  | drawLine (x0 y0 x1 y1 : Int)
  | pause (units : Int)
  | clear
  | showAndWait
  | setColour (value : Int)
  deriving DecidableEq, Repr

/-- `applyMoveX` (R116). -/
def applyMoveX (delta : Int) (p : PlotterState) : PlotterState × List Effect :=
  ({ p with current := { p.current with x := p.current.x + delta } }, [])

/-- `applyMoveY` (R117): the line goes from the anchor to the updated position, and the anchor always moves. -/
def applyMoveY (delta : Int) (p : PlotterState) : PlotterState × List Effect :=
  let next : Point := { p.current with y := p.current.y + delta }
  ({ p with current := next, last := next }, if p.penDown then [.drawLine p.last.x p.last.y next.x next.y] else [])

/-- `applyWait` (R118): a pause of ten units for each encoded unit. -/
def applyWait (duration : Int) (p : PlotterState) : PlotterState × List Effect := (p, [.pause (duration * 10)])

/-- `applyTogglePen` (R119). -/
def applyTogglePen (p : PlotterState) : PlotterState × List Effect := ({ p with penDown := !p.penDown }, [])

/-- `applyClear` (R120). -/
def applyClear (p : PlotterState) : PlotterState × List Effect := (p, [.clear])

/-- `applyShowAndWait` (R121). -/
def applyShowAndWait (p : PlotterState) : PlotterState × List Effect := (p, [.showAndWait])

/-- `applySetColour` (R122). -/
def applySetColour (value : Int) (p : PlotterState) : PlotterState × List Effect := (p, [.setColour value])

/-- The reducer (R114 to R122). -/
def applyInstruction (p : PlotterState) : Instruction → PlotterState × List Effect
  | .moveX d => applyMoveX d.toInt p
  | .moveY d => applyMoveY d.toInt p
  | .wait u => applyWait u.toInt p
  | .togglePen => applyTogglePen p
  | .clear => applyClear p
  | .showAndWait => applyShowAndWait p
  | .setColour v => applySetColour v.toInt p

/-- Instructions applied in stream order, the effects of one before those of the next (R123). What the Executor has
issued when a fault is propagated is the replay of what was delivered (R124). -/
def replay (p : PlotterState) : List Instruction → PlotterState × List Effect
  | [] => (p, [])
  | i :: is =>
    let (q, now) := applyInstruction p i
    let (r, later) := replay q is
    (r, now ++ later)

end Sys2Proof.Machine
end

