-- ==== Sys2Proof/Machine/Transaction.lean ====
section
/-! DEFINITION. The spec's own transaction-level reading, written out from its pseudocode: the step function of R85 with
its output, and the whole-stream decode of R97. It shares the state record and the BitReader with the machine and
nothing else; that the machine's run gives the same result is a statement. -/

namespace Sys2Proof.Machine

/-- The output of a transaction-level step (R85). -/
inductive Output where
  | nothing
  | emit (i : Instruction)
  | halt
  | fault (k : ErrKind) (off : Nat)
  deriving DecidableEq, Repr

/-- `Fault(k, off)` of R85. -/
def transactFault (k : ErrKind) (off : Nat) (s : State) : State × Output :=
  ({ s with st := .faulted, errKind := k, errOffset := off }, .fault k off)

/-- `Dispatch(x, raw, n, start)` of R85. -/
def transactDispatch (x raw n start : Nat) (s : State) : State × Output :=
  let v := int32 (toSigned raw (8 * n))
  let fetching : State := { s with st := .fetch }
  match x with
  | 0 => (fetching, .emit (.moveX v))
  | 1 => (fetching, .emit (.moveY v))
  | 2 => (fetching, .emit (.wait v))
  | 3 => (fetching, .emit .togglePen)
  | 4 => (fetching, .emit .clear)
  | 5 => (fetching, .emit .showAndWait)
  | 6 => (fetching, .emit (.setColour v))
  | _ => transactFault .unrecognizedExtendedOpcode start s

/-- The FETCH part of `Step(s, Byte(b))` of R85. -/
def transactFetch (b : Byte) (s : State) : State × Output :=
  let read : State := { s with instStart := s.pos, pos := s.pos + 1 }
  match (opcode b).toNat with
  | 0 => ({ read with st := .fetch }, .emit (.moveX (int32 (signed6 b))))
  | 1 => ({ read with st := .fetch }, .emit (.moveY (int32 (signed6 b))))
  | 2 => ({ read with st := .fetch }, .emit (.wait (BitVec.ofNat 32 (unsigned6 b))))
  | _ =>
    let n := nextPowerOfTwo (lengthSelector b).toNat
    let latched : State :=
      { read with extOp := extOpOf b, byteCount := BitVec.ofNat 3 n, remaining := BitVec.ofNat 3 n, acc := 0#32 }
    if n = 0 then transactDispatch (extOpOf b).toNat 0 0 s.pos latched
    else ({ latched with st := .operand }, .nothing)

/-- The OPERAND part of `Step(s, Byte(d))` of R85. -/
def transactOperand (d : Byte) (s : State) : State × Output :=
  let a := shiftIn s.acc d
  let read : State := { s with pos := s.pos + 1, acc := a, remaining := s.remaining - 1#3 }
  if s.remaining = 1#3 then transactDispatch s.extOp.toNat a.toNat s.byteCount.toNat s.instStart read
  else (read, .nothing)

/-- `Step(s, ev)` of R85; in HALTED and FAULTED no event is taken (R93). -/
def transact (s : State) (ev : Event) : State × Output :=
  match s.st, ev with
  | .fetch, .eos => ({ s with st := .halted }, .halt)
  | .fetch, .byte b => transactFetch b s
  | .operand, .eos => transactFault .truncatedStream s.instStart s
  | .operand, .byte d => transactOperand d s
  | .halted, _ => (s, .nothing)
  | .faulted, _ => (s, .nothing)

/-- The terminal outcome of a stream (R97, R153). -/
inductive StreamEnd where
  | halted
  | faulted (k : ErrKind) (off : Nat)
  deriving DecidableEq, Repr

/-- The loop of `decodeStream` (R97), with `fuel` steps to go and `out` emitted so far. -/
def decodeLoop (source : List Byte) : Nat → State → List Instruction → Option (List Instruction × StreamEnd × Nat)
  | 0, _, _ => none
  | fuel + 1, s, out =>
    match transact s (eventAt source s.pos) with
    | (t, .nothing) => decodeLoop source fuel t out
    | (t, .emit i) => decodeLoop source fuel t (out ++ [i])
    | (t, .halt) => some (out, .halted, t.pos)
    | (t, .fault k off) => some (out, .faulted k off, t.pos)

/-- `decodeStream(S)` (R97): from the reset state, in the `len(S) + 1` steps that R98 says are enough; `none` would
mean they were not. -/
def decodeStream (source : List Byte) : Option (List Instruction × StreamEnd × Nat) :=
  decodeLoop source (source.length + 1) State.reset []

end Sys2Proof.Machine
end

