-- ==== Sys2Proof/Safety.lean ====
section
/-! DEFINITION. What the statements speak of: the end of a run and its result (R153), the invariants of R30, and what
the block has read and delivered so far. -/

namespace Sys2Proof.Machine

/-! ### Runs -/

/-- A stream presented to the machine right after reset, under an environment (R140, R143). -/
def State.load (source : List Byte) (env : Env) : State := { State.reset with source := source, env := env }

/-- A run has ended: HALTED or FAULTED, and every emitted Instruction delivered (R153). -/
def State.ended (s : State) : Prop := (s.st = .halted ∨ s.st = .faulted) ∧ s.out.valid = false

/-- The outcome of an ended run (R153). -/
def State.outcome (s : State) : StreamEnd :=
  if s.st = .halted then .halted else .faulted s.errKind s.errOffset

/-- The result of an ended run: what was delivered, the outcome and the final `pos` (R153). -/
def State.result (s : State) : List Instruction × StreamEnd × Nat := (s.delivered, s.outcome, s.pos)

/-- The environment asserts no reset at any edge. -/
def Env.noReset (e : Env) : Prop := (∀ p ∈ e.queue, p.rst = none) ∧ e.rest.rst = none

/-- The present edge takes an input event: no reset, an event presented, `in_ready` (R32, R33, R140). -/
abbrev State.takesEvent (s : State) : Prop := s.env.now.rst = none ∧ s.env.now.inValid = true ∧ s.inReady = true

/-- How many input events the first `k` edges from `s` take: the accepted events that R98 and R153 count. -/
def eventsTaken : Nat → State → Nat
  | 0, _ => 0
  | k + 1, s =>
    (if s.takesEvent then 1 else 0) +
      match step s with
      | .next t => eventsTaken k t
      | .fault _ => 0
      | .refused _ => 0

/-! ### Invariants -/

/-- The invariants of R30, with the ranges of R13 and R14 and the places where R86, R90 and R33 leave the counters
and `out`. -/
structure State.Inv (s : State) : Prop where
  /-- R30: `st = FETCH` implies `remaining = 0`. -/
  fetch_remaining : s.st = .fetch → s.remaining = 0#3
  /-- R30: `byte_count ∈ {1, 2, 4}` in OPERAND. -/
  operand_count : s.st = .operand → s.byteCount = 1#3 ∨ s.byteCount = 2#3 ∨ s.byteCount = 4#3
  /-- R30: `1 <= remaining <= byte_count` in OPERAND. -/
  operand_remaining : s.st = .operand → 1 ≤ s.remaining.toNat ∧ s.remaining.toNat ≤ s.byteCount.toNat
  /-- R30: `acc < 2^(8*(byte_count - remaining))` in OPERAND. -/
  operand_acc : s.st = .operand → s.acc.toNat < 2 ^ (8 * (s.byteCount.toNat - s.remaining.toNat))
  /-- R30: FAULTED if and only if an error is recorded. -/
  fault_iff : s.st = .faulted ↔ s.errKind ≠ .none
  /-- R30: `inst_start <= pos`. -/
  start_le_pos : s.instStart ≤ s.pos
  /-- R13: `byte_count` is always one of 0, 1, 2, 4. -/
  count_range : s.byteCount = 0#3 ∨ s.byteCount = 1#3 ∨ s.byteCount = 2#3 ∨ s.byteCount = 4#3
  /-- R14: `remaining <= byte_count`. -/
  remaining_le : s.remaining.toNat ≤ s.byteCount.toNat
  /-- In OPERAND, `pos` is past the escape byte and the operand bytes read so far. -/
  operand_pos : s.st = .operand → s.pos + s.remaining.toNat = s.instStart + 1 + s.byteCount.toNat
  /-- R35: the block never reads past the end of the stream. -/
  pos_le : s.pos ≤ s.source.length
  /-- R33: an undelivered Instruction holds the block in FETCH. -/
  out_fetch : s.out.valid = true → s.st = .fetch
  /-- R86: in HALTED `pos` is the number of bytes of the stream. -/
  halted_pos : s.st = .halted → s.pos = s.source.length
  /-- R90: after TruncatedStream `pos` is the number of bytes of the stream. -/
  truncated_pos : s.errKind = .truncatedStream → s.pos = s.source.length
  /-- R19: the recorded offset is the start of the failing instruction. -/
  fault_offset : s.st = .faulted → s.errOffset = s.instStart

/-- In OPERAND the latched registers are what the bytes since `inst_start` say: the escape byte's fields (R12, R13) and
the big-endian value of the operand bytes read so far (R15, R75). -/
def State.Framed (s : State) : Prop :=
  s.st = .operand → ∃ b, s.source[s.instStart]? = some b ∧ opcode b = 3#2 ∧ s.extOp = extOpOf b ∧
    s.byteCount = operandCount (lengthSelector b) ∧
    s.acc = readBigEndian ((s.source.take s.pos).drop (s.instStart + 1))

/-! ### What has been decoded so far -/

/-- The Instruction an encoded instruction stands for: R102 to R111; none for an unrecognized one (R112). -/
def instructionOf : Instr → Option Instruction
  | .movex imm => some (.moveX (imm.signExtend 32))
  | .movey imm => some (.moveY (imm.signExtend 32))
  | .wait imm => some (.wait (imm.zeroExtend 32))
  | .extMovex sel raw => some (.moveX (operandValue sel raw))
  | .extMovey sel raw => some (.moveY (operandValue sel raw))
  | .extWait sel raw => some (.wait (operandValue sel raw))
  | .extTogglePen _ _ => some .togglePen
  | .extClear _ _ => some .clear
  | .extShowAndWait _ _ => some .showAndWait
  | .extSetColour sel raw => some (.setColour (operandValue sel raw))
  | .unrecognizedExt7 _ _ => none
  | .unrecognizedExt8 _ _ _ => none

/-- An instruction that decodes to an Instruction: well formed, and not unrecognized (R58). -/
def Legal (i : Instr) : Prop := i.wellFormed = true ∧ (instructionOf i).isSome = true

/-- The bytes of whole instructions read so far end here: before the instruction being decoded, or being refused. -/
def State.boundary (s : State) : Nat :=
  match s.st with
  | .fetch => s.pos
  | .operand => s.instStart
  | .halted => s.pos
  | .faulted => s.instStart

/-- The Instruction on offer in `out`, if there is one (R25). -/
def OutReg.offered (o : OutReg) : List Instruction := if o.valid then [o.instruction] else []

/-- The Instructions emitted so far: those delivered, and the one in `out`. -/
def State.emitted (s : State) : List Instruction := s.delivered ++ s.out.offered

/-- What has been emitted is exactly the decode of the whole instructions read so far, in stream order (R45, R95, R99):
the bytes up to the boundary are the encodings of legal instructions, and these stand for the emitted Instructions. -/
def State.Decoded (s : State) : Prop :=
  ∃ is : List Instr, (∀ i ∈ is, Legal i) ∧ s.source.take s.boundary = is.flatMap encode ∧
    is.filterMap instructionOf = s.emitted

/-! ### What an instruction leaves, field by field -/

/-- The two's-complement reading of an `8n`-bit value, by R80's closed form: `raw` below the sign bit, otherwise
`raw - 2^(8n)`, as a 32-bit vector. -/
def twosComplement (n : Nat) (raw : Word) : Word :=
  BitVec.ofInt 32 (if 2 * raw.toNat < 2 ^ (8 * n) then (raw.toNat : Int) else (raw.toNat : Int) - 2 ^ (8 * n))

/-- The registers after the last byte of an escape sequence with extended opcode `x`, before `st`, `out` and the error
registers: with selector 0 that byte is the escape byte (R92, R113 step 1), otherwise it is the last operand byte, which
completes `raw` (R113 steps 2 to n+1). -/
def lastByteRead (x : BitVec 4) (sel : BitVec 2) (raw : Word) (s : State) : State :=
  if sel = 0#2 then
    { s with instStart := s.pos, pos := s.pos + 1, extOp := x, byteCount := 0#3, remaining := 0#3, acc := 0#32 }
  else { s with pos := s.pos + 1, acc := raw, remaining := s.remaining - 1#3 }

/-- `lastByteRead`, and the Instruction offered: FETCH, and `out` holding `kind` and `operand` (R113 dispatch). -/
def dispatched (x : BitVec 4) (sel : BitVec 2) (raw : Word) (kind : OutKind) (operand : Word) (s : State) : State :=
  { lastByteRead x sel raw s with st := .fetch, out := { valid := true, kind := kind, operand := operand } }

/-- The extended opcode of an extended form, with its selector and raw operand; none for a base form (R50). -/
def extendedFields : Instr → Option (BitVec 4 × BitVec 2 × Word)
  | .movex _ => none
  | .movey _ => none
  | .wait _ => none
  | .extMovex sel raw => some (0#4, sel, raw)
  | .extMovey sel raw => some (1#4, sel, raw)
  | .extWait sel raw => some (2#4, sel, raw)
  | .extTogglePen sel raw => some (3#4, sel, raw)
  | .extClear sel raw => some (4#4, sel, raw)
  | .extShowAndWait sel raw => some (5#4, sel, raw)
  | .extSetColour sel raw => some (6#4, sel, raw)
  | .unrecognizedExt7 sel raw => some (7#4, sel, raw)
  | .unrecognizedExt8 low sel raw => some (1#1 ++ low, sel, raw)

/-- The registers once every byte of an instruction that starts at `pos` has been read from FETCH, before `st`, `out`
and the error registers: the offset of its first byte, the offset after its last, and for an extended form the latched
fields, the whole operand and nothing remaining (R102, R113). -/
def wholeRead (i : Instr) (s : State) : State :=
  let read : State := { s with instStart := s.pos, pos := s.pos + (encode i).length }
  match extendedFields i with
  | none => read
  | some (x, sel, raw) =>
    { read with extOp := x, byteCount := operandCount sel, remaining := 0#3, acc := raw }

/-- The state a whole instruction starting at `pos` leaves: its Instruction on offer and FETCH, or, for an unrecognized
one, FAULTED with the offset of its escape byte (R112, R113). -/
def wholeEffect (i : Instr) (s : State) : State :=
  match instructionOf i with
  | some v => { wholeRead i s with st := .fetch, out := { valid := true, kind := v.kind, operand := v.operand } }
  | none => { wholeRead i s with st := .faulted, errKind := .unrecognizedExtendedOpcode, errOffset := s.pos }

/-- Every register of the block, the output register apart, is the same in both states. -/
def sameRegisters (s t : State) : Prop :=
  t.st = s.st ∧ t.extOp = s.extOp ∧ t.byteCount = s.byteCount ∧ t.remaining = s.remaining ∧ t.acc = s.acc ∧
    t.instStart = s.instStart ∧ t.pos = s.pos ∧ t.errKind = s.errKind ∧ t.errOffset = s.errOffset

/-- The byte at every offset of the source, what has been delivered and the schedule are the same in both states. -/
def sameSurroundings (s t : State) : Prop :=
  (∀ k : Nat, t.source[k]? = s.source[k]?) ∧ t.delivered = s.delivered ∧ t.env = s.env

end Sys2Proof.Machine
end

