-- ==== Sys2Proof/Certificates/Slice0/Obligations.lean ====
section
/-! DEFINITION. The statements about the Sketch protocol decoder, from the numbered rules of spec/. -/

section Statements

open Sys2Proof Sys2Proof.Machine

/-! ### Reset and invariants -/

/-- R29: every element of the block at its reset value. -/
def Obligations.ResetValues : Prop :=
  State.reset.st = .fetch ∧ State.reset.extOp = 0#4 ∧ State.reset.byteCount = 0#3 ∧ State.reset.remaining = 0#3 ∧
    State.reset.acc = 0#32 ∧ State.reset.instStart = 0 ∧ State.reset.pos = 0 ∧ State.reset.errKind = .none ∧
    State.reset.errOffset = 0 ∧ State.reset.out.valid = false ∧ State.reset.out.kind.code = 0#3 ∧
    State.reset.out.operand = 0#32

/-- The invariants hold at the start of every run, whatever stream and environment are presented (R29, R30). -/
def Obligations.LoadMeetsInvariants : Prop :=
  ∀ source env, (State.load source env).Inv ∧ (State.load source env).Framed ∧ (State.load source env).Decoded

/-- R30: every step keeps the invariants, from every state that meets them. -/
def Obligations.StepKeepsInv : Prop :=
  ∀ s t : State, s.Inv → step s = .next t → t.Inv

/-- R12, R13, R15, R75: every step keeps the latched registers equal to what the bytes since `inst_start` say. -/
def Obligations.StepKeepsFramed : Prop :=
  ∀ s t : State, s.Inv → s.Framed → step s = .next t → t.Framed

/-- R45, R95, R99: every step keeps the emitted Instructions equal to the decode of the whole instructions read. -/
def Obligations.StepKeepsDecoded : Prop :=
  ∀ s t : State, s.Inv → s.Framed → s.Decoded → step s = .next t → t.Decoded

/-- R96: from every state that meets the invariants, and so on every run, a step gives a next state. -/
def Obligations.StepAlwaysNext : Prop :=
  ∀ s : State, s.Inv → ∃ t, step s = .next t

/-! ### Reset, HALTED, FAULTED -/

/-- R140, R141: an edge with `rst` asserted gives the reset state with the new stream, from every state, and nothing
else leaves HALTED or FAULTED. That `delivered` starts anew is the model's choice (log entry 4). -/
def Obligations.ResetFromEveryState : Prop :=
  (∀ (s : State) (stream : List Byte), s.env.now.rst = some stream →
    step s = .next (State.load stream s.env.later)) ∧
  (∀ s t : State, s.st = .halted ∨ s.st = .faulted → step s = .next t → t.st ≠ s.st →
    ∃ stream, s.env.now.rst = some stream)

/-- R93: in HALTED and FAULTED no event is taken, nothing is emitted and, until reset, nothing of the block changes: a
step leaves the whole state, but for the passing of the edge in the environment's schedule. That is so wherever the
invariants hold; a state that no run reaches, with an Instruction still on offer, may have it taken, and nothing else. -/
def Obligations.TerminalAbsorbing : Prop :=
  ∀ s : State, s.st = .halted ∨ s.st = .faulted →
    s.inReady = false ∧
    (s.env.now.rst = none →
      (s.Inv → step s = .next { s with env := s.env.later }) ∧
      ∃ t, step s = .next t ∧ sameRegisters s t ∧ t.out.kind = s.out.kind ∧ t.out.operand = s.out.operand ∧
        t.source = s.source ∧ t.emitted = s.emitted)

/-! ### BitReader and codec -/

/-- R67, R68, R70, R71, R72: the fields of a byte, by the source's own shifts and masks. -/
def Obligations.FieldsOfByte : Prop :=
  ∀ b : Byte,
    (opcode b).toNat = b.toNat >>> 6 ∧
    unsigned6 b = b.toNat &&& 0x3F ∧
    (lengthSelector b).toNat = (b.toNat &&& 0x30) >>> 4 ∧
    (extOpOf b).toNat = b.toNat &&& 0x0F ∧
    ∀ n : BitVec 3, (bit b n).toNat = (b.toNat >>> n.toNat) &&& 1

/-- R69: `signed6`, its range and its 32-bit form. -/
def Obligations.Signed6Value : Prop :=
  ∀ b : Byte,
    signed6 b = (if bit b 5#3 = 0#1 then ((immediate b).toNat : Int) else ((immediate b).toNat : Int) - 64) ∧
    -32 ≤ signed6 b ∧ signed6 b ≤ 31 ∧ int32 (signed6 b) = (immediate b).signExtend 32

/-- R73: `nextPowerOfTwo` is 0 at 0 and the least power of two at least `n` otherwise; 0, 1, 2, 4 on a selector. -/
def Obligations.NextPowerOfTwoLeast : Prop :=
  nextPowerOfTwo 0 = 0 ∧ nextPowerOfTwo 1 = 1 ∧ nextPowerOfTwo 2 = 2 ∧ nextPowerOfTwo 3 = 4 ∧
  ∀ n, 1 ≤ n → (∃ k, nextPowerOfTwo n = 2 ^ k) ∧ n ≤ nextPowerOfTwo n ∧ ∀ j, n ≤ 2 ^ j → nextPowerOfTwo n ≤ 2 ^ j

/-- R53: the selectors 0, 1, 2, 3 give 0, 1, 2, 4 operand bytes, and `byte_count` holds that number. -/
def Obligations.SelectorMap : Prop :=
  operandBytes 0#2 = 0 ∧ operandBytes 1#2 = 1 ∧ operandBytes 2#2 = 2 ∧ operandBytes 3#2 = 4 ∧
    ∀ sel, (operandCount sel).toNat = operandBytes sel

/-- R41, R74, R75: the big-endian value of up to four bytes is the sum of `d_i * 2^(8*(n-1-i))`, below `2^(8n)`. -/
def Obligations.BigEndianSum : Prop :=
  ∀ ds : List Byte, ds.length ≤ 4 →
    (readBigEndian ds).toNat = ∑ i : Fin ds.length, ds[i].toNat * 2 ^ (8 * (ds.length - 1 - i)) ∧
    (readBigEndian ds).toNat < 2 ^ (8 * ds.length)

/-- R80: `toSigned` is the two's-complement value on `u < 2^L`, lies in the signed range, and `v mod 2^L` inverts it. -/
def Obligations.ToSignedTwosComplement : Prop :=
  ∀ L, 1 ≤ L →
    (∀ u, u < 2 ^ L → toSigned u L = if u < 2 ^ (L - 1) then (u : Int) else (u : Int) - 2 ^ L) ∧
    (∀ u, u < 2 ^ L → -(2 : Int) ^ (L - 1) ≤ toSigned u L ∧ toSigned u L ≤ 2 ^ (L - 1) - 1 ∧
      toSigned u L % 2 ^ L = (u : Int)) ∧
    (∀ v : Int, -(2 : Int) ^ (L - 1) ≤ v → v ≤ 2 ^ (L - 1) - 1 → toSigned (v % 2 ^ L).toNat L = v)

/-- R79, R81: an operand that fits its bytes reaches the output without loss: 0 for no bytes, the sign-extended low
`8n` bits otherwise, and its signed value is `toSigned(raw, 8n)`. -/
def Obligations.OperandValueExact : Prop :=
  (∀ raw, operandValue 0#2 raw = 0#32) ∧
  (∀ raw : Word, raw.toNat < 2 ^ 8 → operandValue 1#2 raw = (raw.setWidth 8).signExtend 32) ∧
  (∀ raw : Word, raw.toNat < 2 ^ 16 → operandValue 2#2 raw = (raw.setWidth 16).signExtend 32) ∧
  (∀ raw : Word, operandValue 3#2 raw = raw) ∧
  (∀ sel raw, operandFits sel raw = true → (operandValue sel raw).toInt = toSigned raw.toNat (8 * operandBytes sel))

/-! ### Encoding -/

/-- R48 to R53: decoding the bytes of a well-formed instruction, whatever follows them, gives it back. -/
def Obligations.DecodeEncode : Prop :=
  ∀ (i : Instr) (rest : List Byte), i.wellFormed = true → decode (encode i ++ rest) = .ok (i, rest)

/-- R48 to R53: what the decoder answers is well formed, and its bytes are the ones that were read. -/
def Obligations.EncodeDecode : Prop :=
  ∀ (bs rest : List Byte) (i : Instr), decode bs = .ok (i, rest) → i.wellFormed = true ∧ encode i ++ rest = bs

/-- R57, R60: every first byte has a decode, its length is fixed by it alone, and only a list that ends before that
length is rejected, as truncated. -/
def Obligations.DecodeTotal : Prop :=
  decode [] = .error .endOfStream ∧
  ∀ (b : Byte) (rest : List Byte),
    (instrLength b ≤ rest.length + 1 → ∃ i, decode (b :: rest) = .ok (i, (b :: rest).drop (instrLength b))) ∧
    (rest.length + 1 < instrLength b → decode (b :: rest) = .error .truncatedOperand)

/-- R58: the instructions that stand for no Instruction are exactly the escape sequences with extended opcode 7 to 15,
and 36 byte values begin one. -/
def Obligations.UnrecognizedExactly : Prop :=
  (∀ (b : Byte) (bs rest : List Byte) (i : Instr), decode (b :: bs) = .ok (i, rest) →
    (instructionOf i = none ↔ opcode b = 3#2 ∧ 7 ≤ (extOpOf b).toNat)) ∧
  ((List.range 256).filter fun k => opcode (BitVec.ofNat 8 k) = 3#2 ∧ 7 ≤ (extOpOf (BitVec.ofNat 8 k)).toNat).length
    = 36

/-- R61: some words written out bit by bit from the opcode map. -/
def Obligations.SampleWords : Prop :=
  decode [0b00001010#8] = .ok (.movex 10#6, []) ∧
  decode [0b01111101#8] = .ok (.movey 0b111101#6, []) ∧
  decode [0b10111111#8] = .ok (.wait 63#6, []) ∧
  decode [0b11010000#8, 0xCE#8] = .ok (.extMovex 1#2 0xCE#32, []) ∧
  decode [0b11100001#8, 0x01#8, 0x00#8] = .ok (.extMovey 2#2 0x100#32, []) ∧
  decode [0b11110010#8, 0x00#8, 0x00#8, 0x01#8, 0x00#8] = .ok (.extWait 3#2 0x100#32, []) ∧
  decode [0b11000011#8, 0x0A#8] = .ok (.extTogglePen 0#2 0#32, [0x0A#8]) ∧
  decode [0b11100110#8, 0xFF#8, 0x74#8] = .ok (.extSetColour 2#2 0xFF74#32, []) ∧
  decode [0b11000111#8] = .ok (.unrecognizedExt7 0#2 0#32, []) ∧
  decode [0b11101000#8, 0x01#8, 0x02#8] = .ok (.unrecognizedExt8 0#3 2#2 0x102#32, [])

/-- R63: the canonical encoding of every Instruction decodes to a form that stands for it, and no form that stands for
it is shorter. -/
def Obligations.CanonicalShortest : Prop :=
  ∀ v : Instruction,
    (∃ i, decode (canonical v) = .ok (i, []) ∧ instructionOf i = some v) ∧
    ∀ i : Instr, i.wellFormed = true → instructionOf i = some v → (canonical v).length ≤ (encode i).length

/-! ### What each instruction does -/

/-- R102: the encoding and the whole effect of MOVEX, every other field of the state unchanged. -/
def Obligations.MovexEffect : Prop :=
  ∀ (imm : BitVec 6) (s : State),
    (∀ rest, decode ((0#2 ++ imm : BitVec 8) :: rest) = .ok (.movex imm, rest)) ∧
    exec (.movex imm) s =
      .next { s with instStart := s.pos, pos := s.pos + 1, st := .fetch,
                     out := { valid := true, kind := .moveX, operand := imm.signExtend 32 } }

/-- R103: the encoding and the whole effect of MOVEY, every other field of the state unchanged. -/
def Obligations.MoveyEffect : Prop :=
  ∀ (imm : BitVec 6) (s : State),
    (∀ rest, decode ((1#2 ++ imm : BitVec 8) :: rest) = .ok (.movey imm, rest)) ∧
    exec (.movey imm) s =
      .next { s with instStart := s.pos, pos := s.pos + 1, st := .fetch,
                     out := { valid := true, kind := .moveY, operand := imm.signExtend 32 } }

/-- R104: the encoding and the whole effect of WAIT, whose immediate is unsigned; every other field unchanged. -/
def Obligations.WaitEffect : Prop :=
  ∀ (imm : BitVec 6) (s : State),
    (∀ rest, decode ((2#2 ++ imm : BitVec 8) :: rest) = .ok (.wait imm, rest)) ∧
    exec (.wait imm) s =
      .next { s with instStart := s.pos, pos := s.pos + 1, st := .fetch,
                     out := { valid := true, kind := .wait, operand := imm.zeroExtend 32 } }

/-- R105, R113: the dispatching step of EXT.MOVEX at every selector and operand. -/
def Obligations.ExtMovexEffect : Prop :=
  ∀ (sel : BitVec 2) (raw : Word) (s : State), operandFits sel raw = true →
    exec (.extMovex sel raw) s = .next (dispatched 0#4 sel raw .moveX (twosComplement (operandBytes sel) raw) s)

/-- R106, R113: the dispatching step of EXT.MOVEY at every selector and operand. -/
def Obligations.ExtMoveyEffect : Prop :=
  ∀ (sel : BitVec 2) (raw : Word) (s : State), operandFits sel raw = true →
    exec (.extMovey sel raw) s = .next (dispatched 1#4 sel raw .moveY (twosComplement (operandBytes sel) raw) s)

/-- R107, R113: the dispatching step of EXT.WAIT, whose operand is signed, at every selector and operand. -/
def Obligations.ExtWaitEffect : Prop :=
  ∀ (sel : BitVec 2) (raw : Word) (s : State), operandFits sel raw = true →
    exec (.extWait sel raw) s = .next (dispatched 2#4 sel raw .wait (twosComplement (operandBytes sel) raw) s)

/-- R108 to R110, R27, R59: the dispatching steps of the three kinds without an operand, at every selector; the operand
bytes are read, and `out_operand` is 0. -/
def Obligations.ExtPlainEffects : Prop :=
  ∀ (sel : BitVec 2) (raw : Word) (s : State),
    exec (.extTogglePen sel raw) s = .next (dispatched 3#4 sel raw .togglePen 0#32 s) ∧
    exec (.extClear sel raw) s = .next (dispatched 4#4 sel raw .clear 0#32 s) ∧
    exec (.extShowAndWait sel raw) s = .next (dispatched 5#4 sel raw .showAndWait 0#32 s)

/-- R111, R113: the dispatching step of EXT.SETCOLOUR at every selector and operand. -/
def Obligations.ExtSetColourEffect : Prop :=
  ∀ (sel : BitVec 2) (raw : Word) (s : State), operandFits sel raw = true →
    exec (.extSetColour sel raw) s =
      .next (dispatched 6#4 sel raw .setColour (twosComplement (operandBytes sel) raw) s)

/-- R112, R129, R133: an unrecognized extended opcode, 7 or `1xxx`, takes the fault with the offset of its escape byte
and emits nothing. -/
def Obligations.UnrecognizedEffect : Prop :=
  ∀ (sel : BitVec 2) (raw : Word) (s : State),
    exec (.unrecognizedExt7 sel raw) s =
      .next { lastByteRead 7#4 sel raw s with
        st := .faulted, errKind := .unrecognizedExtendedOpcode,
        errOffset := if sel = 0#2 then s.pos else s.instStart } ∧
    ∀ low : BitVec 3, exec (.unrecognizedExt8 low sel raw) s =
      .next { lastByteRead (1#1 ++ low) sel raw s with
        st := .faulted, errKind := .unrecognizedExtendedOpcode,
        errOffset := if sel = 0#2 then s.pos else s.instStart }

/-! ### Frames -/

/-- What a base form leaves unchanged: the escape registers, the error registers, every byte of the stream, and what
the environment holds. -/
def Obligations.BaseFrame : Prop :=
  ∀ (i : Instr) (s t : State), extendedFields i = none → exec i s = .next t →
    t.extOp = s.extOp ∧ t.byteCount = s.byteCount ∧ t.remaining = s.remaining ∧ t.acc = s.acc ∧
    t.errKind = s.errKind ∧ t.errOffset = s.errOffset ∧ sameSurroundings s t

/-- What an extended form leaves unchanged: every byte of the stream and what the environment holds; the error registers
where it is recognized and `out` where it is not; and the latched fields where its last byte is an operand byte. -/
def Obligations.ExtendedFrame : Prop :=
  ∀ (i : Instr) (x : BitVec 4) (sel : BitVec 2) (raw : Word) (s t : State),
    extendedFields i = some (x, sel, raw) → exec i s = .next t →
    sameSurroundings s t ∧
    ((instructionOf i).isSome = true → t.errKind = s.errKind ∧ t.errOffset = s.errOffset) ∧
    (instructionOf i = none → t.out = s.out) ∧
    (sel ≠ 0#2 → t.extOp = s.extOp ∧ t.byteCount = s.byteCount ∧ t.instStart = s.instStart)

/-! ### One edge -/

/-- A step runs the instruction that its byte completes. In FETCH: the byte at `pos`, alone a complete instruction. In
OPERAND with one byte owed: the extended form the latched registers and that byte make. The step adds only the passing
of the edge in the environment's schedule. -/
def Obligations.StepRunsCompleted : Prop :=
  ∀ s : State, s.takesEvent →
    (∀ b i, s.st = .fetch → s.source[s.pos]? = some b → decode [b] = .ok (i, []) → step s = exec i s.tick) ∧
    (∀ d sel, s.st = .operand → s.remaining = 1#3 → sel ≠ 0#2 → s.byteCount = operandCount sel →
      s.source[s.pos]? = some d → step s = exec (extInstr s.extOp sel (shiftIn s.acc d)) s.tick)

/-- A step runs the decoded instruction: where the bytes from the start of the instruction being read decode to `i`
and the byte at `pos` is its last, the step is `exec i`. -/
def Obligations.StepRunsDecoded : Prop :=
  ∀ (s : State) (i : Instr) (rest : List Byte), s.Inv → s.Framed → s.takesEvent →
    decode (s.source.drop s.boundary) = .ok (i, rest) → s.boundary + (encode i).length = s.pos + 1 →
    step s = exec i s.tick

/-- R87: an escape byte with operand bytes to come is latched, whatever its extended opcode. -/
def Obligations.EscapeLatched : Prop :=
  ∀ (s : State) (b : Byte), s.takesEvent → s.st = .fetch → s.source[s.pos]? = some b → opcode b = 3#2 →
    lengthSelector b ≠ 0#2 →
    step s = .next { s with
      st := .operand, instStart := s.pos, pos := s.pos + 1, extOp := extOpOf b,
      byteCount := BitVec.ofNat 3 (nextPowerOfTwo (lengthSelector b).toNat),
      remaining := BitVec.ofNat 3 (nextPowerOfTwo (lengthSelector b).toNat), acc := 0#32, env := s.env.later }

/-- R89: an operand byte that is not the last is shifted in and counted, and nothing is emitted. -/
def Obligations.OperandShifted : Prop :=
  ∀ (s : State) (d : Byte), s.takesEvent → s.st = .operand → s.source[s.pos]? = some d → s.remaining ≠ 1#3 →
    step s = .next { s with
      pos := s.pos + 1, acc := (s.acc <<< 8) ||| d.zeroExtend 32, remaining := s.remaining - 1#3, env := s.env.later }

/-- R86: `EOS` in FETCH halts, and writes nothing but `st`; `pos` is the number of bytes of the stream wherever the
invariants hold. -/
def Obligations.EndOfStreamHalts : Prop :=
  ∀ s : State, s.takesEvent → s.st = .fetch → s.source[s.pos]? = none →
    step s = .next { s with st := .halted, env := s.env.later } ∧ (s.Inv → s.pos = s.source.length ∧ s.errKind = .none)

/-- R90, R127, R133: `EOS` in OPERAND is TruncatedStream, whatever the extended opcode, and writes nothing but `st` and
the error registers; `pos` is the number of bytes of the stream wherever the invariants hold. -/
def Obligations.TruncatedStreamFaults : Prop :=
  ∀ s : State, s.takesEvent → s.st = .operand → s.source[s.pos]? = none →
    step s = .next { s with
      st := .faulted, errKind := .truncatedStream, errOffset := s.instStart, env := s.env.later } ∧
    (s.Inv → s.pos = s.source.length)

/-- R32, R147: an Instruction on offer goes to a ready consumer, and holds everything while the consumer is not. -/
def Obligations.DeliveryAndBackPressure : Prop :=
  ∀ s : State, s.env.now.rst = none → s.out.valid = true →
    (s.env.now.outReady = true →
      step s = .next { s with
        delivered := s.delivered ++ [s.out.instruction], out := { s.out with valid := false }, env := s.env.later }) ∧
    (s.env.now.outReady = false → step s = .next { s with env := s.env.later })

/-- R100, R101: a stalled edge changes nothing of the block. -/
def Obligations.StallChangesNothing : Prop :=
  ∀ s : State, s.env.now.rst = none → s.out.valid = false → s.env.now.inValid = false →
    step s = .next { s with env := s.env.later }

/-- R33: `in_ready` is what the rule says, and an edge without reset that takes no event changes no register. -/
def Obligations.InputOnlyWhenReady : Prop :=
  (∀ s : State, s.inReady = true ↔ (s.st = .fetch ∨ s.st = .operand) ∧ s.out.valid = false) ∧
  ∀ s t : State, s.env.now.rst = none → ¬ s.takesEvent → step s = .next t → sameRegisters s t ∧ t.emitted = s.emitted

/-- R37, R39, R95: without reset the stream is not written, `pos` stays or advances by one byte, and what was emitted
stays emitted, in order. -/
def Obligations.ForwardOnly : Prop :=
  ∀ s t : State, s.Inv → s.env.now.rst = none → step s = .next t →
    t.source = s.source ∧ (t.pos = s.pos ∨ t.pos = s.pos + 1) ∧ s.emitted <+: t.emitted

/-- R37: no lookahead. A step depends on the stream only through the byte at `pos`: with any other stream that agrees
there, it does the same. -/
def Obligations.NoLookahead : Prop :=
  ∀ (s t : State) (other : List Byte), s.env.now.rst = none → other[s.pos]? = s.source[s.pos]? →
    step s = .next t → step { s with source := other } = .next { t with source := other }

/-- R11, R18, R20, R26, R31, R33, R34: the outputs are views of the state, and `st`, `err_kind` and `out_kind` have the
numbers the rules give them. The two offsets are reported modulo the open `OFFSET_WIDTH` (R17; log entry 1); the
statement holds for every value of it. -/
def Obligations.PortsShowState : Prop :=
  ∀ s : State,
    (s.ports.halted = true ↔ s.st = .halted) ∧ (s.ports.faulted = true ↔ s.st = .faulted) ∧
    (s.busyInOperand = true ↔ s.st = .operand) ∧
    (s.ports.inReady = true ↔ (s.st = .fetch ∨ s.st = .operand) ∧ s.out.valid = false) ∧
    s.ports.outValid = s.out.valid ∧ s.ports.outOperand = s.out.operand ∧
    s.ports.pos = s.pos % 2 ^ Config.offsetWidth ∧ s.ports.errOffset = s.errOffset % 2 ^ Config.offsetWidth ∧
    (s.st.code = match s.st with
      | .fetch => 0#2
      | .operand => 1#2
      | .halted => 2#2
      | .faulted => 3#2) ∧
    (s.ports.errKind = match s.errKind with
      | .none => 0#2
      | .truncatedStream => 1#2
      | .unrecognizedExtendedOpcode => 2#2) ∧
    (s.ports.outKind = match s.out.kind with
      | .moveX => 0#3
      | .moveY => 1#3
      | .wait => 2#3
      | .togglePen => 3#3
      | .clear => 4#3
      | .showAndWait => 5#3
      | .setColour => 6#3) ∧
    s.ports.errKind ≠ 3#2 ∧ s.ports.outKind ≠ 7#3 ∧
    (s.Inv → (s.ports.errKind ≠ 0#2 ↔ s.ports.faulted = true))

/-! ### Whole instructions -/

/-- R113, R102 to R112: from FETCH with eager agents, an instruction whose bytes stand at `pos` takes one step for each
byte, runs `exec` at the last, and leaves exactly what the rules give. -/
def Obligations.WholeInstruction : Prop :=
  ∀ (i : Instr) (s : State) (rest : List Byte), i.wellFormed = true → s.st = .fetch → s.out.valid = false →
    s.env = Env.eager → s.source.drop s.pos = encode i ++ rest →
    (∃ t, core.run ((encode i).length - 1) s = .next t ∧ step t = exec i t) ∧
    core.run (encode i).length s = .next (wholeEffect i s)

/-- R90, R113, R127, R131: an escape byte whose operand bytes do not all come ends in TruncatedStream, even where its
extended opcode is unrecognized; the offset is the escape byte's, `pos` is the stream's length, and nothing is emitted. -/
def Obligations.TruncatedInstruction : Prop :=
  ∀ (b : Byte) (ds : List Byte) (s : State), opcode b = 3#2 → ds.length < operandBytes (lengthSelector b) →
    s.st = .fetch → s.out.valid = false → s.env = Env.eager → s.source.drop s.pos = b :: ds →
    core.run (ds.length + 2) s = .next { s with
      st := .faulted, errKind := .truncatedStream, errOffset := s.pos, instStart := s.pos, pos := s.source.length,
      extOp := extOpOf b, byteCount := operandCount (lengthSelector b),
      remaining := operandCount (lengthSelector b) - BitVec.ofNat 3 ds.length, acc := readBigEndian ds }

/-! ### Whole streams -/

/-- R65: encoding and decoding round-trips. A stream of canonical encodings, and any stream of legal encodings, is
delivered as the Instructions it stands for and ends HALTED at its length, by `decodeStream` and by the machine. -/
def Obligations.StreamRoundTrip : Prop :=
  (∀ vs : List Instruction,
    decodeStream (vs.flatMap canonical) = some (vs, .halted, (vs.flatMap canonical).length) ∧
    ∃ k t, core.run k (State.load (vs.flatMap canonical) Env.eager) = .next t ∧
      t.ended ∧ t.result = (vs, .halted, (vs.flatMap canonical).length)) ∧
  (∀ is : List Instr, (∀ i ∈ is, Legal i) →
    decodeStream (is.flatMap encode) = some (is.filterMap instructionOf, .halted, (is.flatMap encode).length) ∧
    ∃ k t, core.run k (State.load (is.flatMap encode) Env.eager) = .next t ∧
      t.ended ∧ t.result = (is.filterMap instructionOf, .halted, (is.flatMap encode).length))

/-- R97, R149, R153: an ended run's result is `decodeStream`'s, whatever the producer's stalls and the consumer's waits,
as long as no reset is asserted. -/
def Obligations.RunIsDecodeStream : Prop :=
  ∀ (source : List Byte) (env : Env) (k : Nat) (t : State), env.noReset →
    core.run k (State.load source env) = .next t → t.ended → decodeStream source = some t.result

/-- R98, R153: every finite stream ends where the agents are fair: without reset, whatever stalls and waits the
schedule lists, as long as it presents events and takes Instructions after them (the fair schedules of log entry 12).
The bound on edges is the model's: one for each listed edge, each byte, each delivery, and `EOS`, since a delivery is an
edge of its own (log entry 6). R153's own bound is the second clause: fair or not, no run takes more than `len(S) + 1`
input events. -/
def Obligations.EveryStreamEnds : Prop :=
  (∀ (source : List Byte) (env : Env), env.noReset → env.rest.inValid = true → env.rest.outReady = true →
    ∃ k t, k ≤ env.queue.length + 2 * source.length + 1 ∧ core.run k (State.load source env) = .next t ∧ t.ended) ∧
  ∀ (source : List Byte) (env : Env) (k : Nat), env.noReset →
    eventsTaken k (State.load source env) ≤ source.length + 1

/-- R98, R131: the three ways a stream ends. HALTED exactly when it is a concatenation of complete legal instructions;
otherwise TruncatedStream after a prefix of them, or UnrecognizedExtendedOpcode at the first complete illegal escape
sequence, with the offsets the rule gives; the output is the prefix's in each case. The `len(S) + 1` steps that
`decodeStream` is given are always enough. -/
def Obligations.StreamEndsAsFramed : Prop :=
  (∀ source : List Byte, (decodeStream source).isSome = true) ∧
  ∀ (source : List Byte) (out : List Instruction) (e : StreamEnd) (p : Nat),
    decodeStream source = some (out, e, p) ↔
      ∃ is : List Instr, (∀ i ∈ is, Legal i) ∧ out = is.filterMap instructionOf ∧
        ((e = .halted ∧ source = is.flatMap encode ∧ p = source.length) ∨
         (∃ b ds, source = is.flatMap encode ++ b :: ds ∧ opcode b = 3#2 ∧
            ds.length < operandBytes (lengthSelector b) ∧
            e = .faulted .truncatedStream (is.flatMap encode).length ∧ p = source.length) ∨
         (∃ j rest, j.wellFormed = true ∧ instructionOf j = none ∧ source = is.flatMap encode ++ encode j ++ rest ∧
            e = .faulted .unrecognizedExtendedOpcode (is.flatMap encode).length ∧
            p = (is.flatMap encode).length + (encode j).length))

/-! ### The reference consumer -/

/-- R116 to R122: what each Instruction does to the consumer, and the requests it makes. -/
def Obligations.ConsumerEffects : Prop :=
  ∀ (p : PlotterState) (v : Word),
    applyInstruction p (.moveX v) = ({ p with current := ⟨p.current.x + v.toInt, p.current.y⟩ }, []) ∧
    applyInstruction p (.moveY v) =
      ({ p with current := ⟨p.current.x, p.current.y + v.toInt⟩, last := ⟨p.current.x, p.current.y + v.toInt⟩ },
        if p.penDown = true then [.drawLine p.last.x p.last.y p.current.x (p.current.y + v.toInt)] else []) ∧
    applyInstruction p (.wait v) = (p, [.pause (v.toInt * 10)]) ∧
    applyInstruction p .togglePen = ({ p with penDown := !p.penDown }, []) ∧
    applyInstruction p .clear = (p, [.clear]) ∧
    applyInstruction p .showAndWait = (p, [.showAndWait]) ∧
    applyInstruction p (.setColour v) = (p, [.setColour v.toInt])

/-- R116, R117: without a MoveY nothing is ever drawn and the anchor does not move, whatever the pen. -/
def Obligations.OnlyMoveYDraws : Prop :=
  ∀ (vs : List Instruction) (p : PlotterState), (∀ d, Instruction.moveY d ∉ vs) →
    (replay p vs).1.last = p.last ∧ ∀ x0 y0 x1 y1, Effect.drawLine x0 y0 x1 y1 ∉ (replay p vs).2

/-- R123, R124: a stream applied in two parts is the stream applied whole, effects in order: what was issued before a
fault stays issued. -/
def Obligations.ReplayInOrder : Prop :=
  ∀ (vs ws : List Instruction) (p : PlotterState),
    replay p (vs ++ ws) =
      ((replay (replay p vs).1 ws).1, (replay p vs).2 ++ (replay (replay p vs).1 ws).2)

end Statements
end

