-- ==== Sys2Proof/Laws/Operands.lean ====
section
/-! SUPPORT. What the length lookup, the big-endian reader and the immediates give. -/

namespace Sys2Proof.Machine

@[simp] theorem operandBytes_zero : operandBytes 0#2 = 0 := by decide
@[simp] theorem operandBytes_one : operandBytes 1#2 = 1 := by decide
@[simp] theorem operandBytes_two : operandBytes 2#2 = 2 := by decide
@[simp] theorem operandBytes_three : operandBytes 3#2 = 4 := by decide

/-- The four selectors. -/
theorem selector_cases (sel : BitVec 2) : sel = 0#2 ∨ sel = 1#2 ∨ sel = 2#2 ∨ sel = 3#2 := by
  revert sel; decide

theorem operandBytes_eq_zero_iff (sel : BitVec 2) : operandBytes sel = 0 ↔ sel = 0#2 := by
  revert sel; decide

theorem operandCount_eq_zero_iff (sel : BitVec 2) : operandCount sel = 0#3 ↔ sel = 0#2 := by
  revert sel; decide

/-- The register `byte_count` can name the selector again. -/
@[simp] theorem selectorOf_operandCount (sel : BitVec 2) : selectorOf (operandCount sel) = some sel := by
  revert sel; decide

theorem selectorOf_eq_some (n : BitVec 3) (sel : BitVec 2) : selectorOf n = some sel ↔ n = operandCount sel := by
  revert n sel; decide

@[simp] theorem readBigEndian_nil : readBigEndian [] = 0#32 := rfl

/-- One more byte is one accumulation step. -/
@[simp] theorem readBigEndian_append_one (ds : List Byte) (d : Byte) :
    readBigEndian (ds ++ [d]) = shiftIn (readBigEndian ds) d := by
  simp [readBigEndian]

@[simp] theorem bigEndianBytes_length (n : Nat) (x : Word) : (bigEndianBytes n x).length = n := by
  induction n with
  | zero => rfl
  | succ n ih => simp [bigEndianBytes, ih]

/-- The 32-bit output of a signed 6-bit immediate is its sign extension (R54). -/
theorem int32_signedImmediate (imm : BitVec 6) : int32 (signedImmediate imm) = imm.signExtend 32 := by
  revert imm; decide

end Sys2Proof.Machine
end

