-- ==== Sys2Proof/Laws/Decode.lean ====
section
/-! SUPPORT. What the two halves of the wire format are made of: the first byte, and the extended forms. -/

namespace Sys2Proof

open Machine

/-- A byte with opcode 3 is no base form, and only such a byte is none. -/
theorem baseInstr_eq_none (b : Byte) : baseInstr b = none ↔ opcode b = 3#2 := by
  have h : ∀ x : BitVec 2, x = 0#2 ∨ x = 1#2 ∨ x = 2#2 ∨ x = 3#2 := selector_cases
  rcases h (opcode b) with e | e | e | e <;> simp [baseInstr, e]

/-- A base form has a base byte's fields, is well formed and is encoded by that byte. -/
theorem baseInstr_eq_some {b : Byte} {i : Instr} (h : baseInstr b = some i) :
    extendedFields i = none ∧ i.wellFormed = true ∧ encode i = [b] ∧ opcode b ≠ 3#2 := by
  have e : ∀ b : Byte, (opcode b = 0#2 → baseByte 0#2 (immediate b) = b) ∧
      (opcode b = 1#2 → baseByte 1#2 (immediate b) = b) ∧ (opcode b = 2#2 → baseByte 2#2 (immediate b) = b) := by
    decide
  obtain ⟨e0, e1, e2⟩ := e b
  simp only [baseInstr] at h
  split at h
  · rename_i h0; cases h; simp [extendedFields, Instr.wellFormed, encode, e0 h0, h0]
  · split at h
    · rename_i h1; cases h; simp [extendedFields, Instr.wellFormed, encode, e1 h1, h1]
    · split at h
      · rename_i h2; cases h; simp [extendedFields, Instr.wellFormed, encode, e2 h2, h2]
      · cases h

/-- The extended form of an extended opcode carries exactly the three fields. -/
@[simp] theorem extendedFields_extInstr (x : BitVec 4) (sel : BitVec 2) (raw : Word) :
    extendedFields (extInstr x sel raw) = some (x, sel, raw) := by
  have h : ∀ x : BitVec 4, x = 0#4 ∨ x = 1#4 ∨ x = 2#4 ∨ x = 3#4 ∨ x = 4#4 ∨ x = 5#4 ∨ x = 6#4 ∨ x = 7#4 ∨
      (8 ≤ x.toNat ∧ 1#1 ++ x.extractLsb' 0 3 = x ∧ x ≠ 0#4 ∧ x ≠ 1#4 ∧ x ≠ 2#4 ∧ x ≠ 3#4 ∧ x ≠ 4#4 ∧
        x ≠ 5#4 ∧ x ≠ 6#4 ∧ x ≠ 7#4) := by decide
  rcases h x with e | e | e | e | e | e | e | e | ⟨_, e, h0, h1, h2, h3, h4, h5, h6, h7⟩
  all_goals first
    | (subst e; rfl)
    | simp [extInstr, h0, h1, h2, h3, h4, h5, h6, h7, extendedFields, e]

/-- An instruction with extended fields is the extended form of them. -/
theorem eq_extInstr {i : Instr} {x : BitVec 4} {sel : BitVec 2} {raw : Word}
    (h : extendedFields i = some (x, sel, raw)) : i = extInstr x sel raw := by
  cases i <;> simp [extendedFields] at h <;> try (obtain ⟨rfl, rfl, rfl⟩ := h; rfl)
  rename_i low _ _
  obtain ⟨rfl, rfl, rfl⟩ := h
  have e : ∀ low : BitVec 3, 1#1 ++ low ≠ 0#4 ∧ 1#1 ++ low ≠ 1#4 ∧ 1#1 ++ low ≠ 2#4 ∧ 1#1 ++ low ≠ 3#4 ∧
      1#1 ++ low ≠ 4#4 ∧ 1#1 ++ low ≠ 5#4 ∧ 1#1 ++ low ≠ 6#4 ∧ 1#1 ++ low ≠ 7#4 ∧
      (1#1 ++ low).extractLsb' 0 3 = low := by decide
  obtain ⟨h0, h1, h2, h3, h4, h5, h6, h7, h8⟩ := e low
  simp [extInstr, h0, h1, h2, h3, h4, h5, h6, h7, h8]

/-- How an extended form is encoded, and when it is well formed. -/
theorem encode_of_extendedFields {i : Instr} {x : BitVec 4} {sel : BitVec 2} {raw : Word}
    (h : extendedFields i = some (x, sel, raw)) :
    encode i = encodeExt x sel raw ∧ i.wellFormed = operandFits sel raw := by
  cases i <;> simp [extendedFields] at h <;> (obtain ⟨rfl, rfl, rfl⟩ := h; exact ⟨rfl, rfl⟩)

/-- An extended form stands for an Instruction exactly when its extended opcode is 0 to 6. -/
theorem instructionOf_eq_none {i : Instr} {x : BitVec 4} {sel : BitVec 2} {raw : Word}
    (h : extendedFields i = some (x, sel, raw)) : instructionOf i = none ↔ 7 ≤ x.toNat := by
  have e : ∀ low : BitVec 3, 7 ≤ (1#1 ++ low).toNat := by decide
  cases i <;> simp [extendedFields] at h <;> (obtain ⟨rfl, rfl, rfl⟩ := h; simp [instructionOf, e])

/-- A base form always stands for an Instruction. -/
theorem instructionOf_base {i : Instr} (h : extendedFields i = none) : (instructionOf i).isSome = true := by
  cases i <;> simp_all [extendedFields, instructionOf]

/-- The fields of an escape byte. -/
@[simp] theorem escapeByte_fields (x : BitVec 4) (sel : BitVec 2) :
    opcode (escapeByte x sel) = 3#2 ∧ lengthSelector (escapeByte x sel) = sel ∧ extOpOf (escapeByte x sel) = x := by
  revert x sel; decide

/-- A byte with opcode 3 is the escape byte of its fields. -/
theorem escapeByte_of_opcode {b : Byte} (h : opcode b = 3#2) : escapeByte (extOpOf b) (lengthSelector b) = b := by
  revert b; decide

@[simp] theorem encodeExt_length (x : BitVec 4) (sel : BitVec 2) (raw : Word) :
    (encodeExt x sel raw).length = 1 + operandBytes sel := by
  simp [encodeExt, Nat.add_comm]

end Sys2Proof
end

