-- ==== Sys2Proof/Laws/PerInstr.lean ====
section
/-! SUPPORT. Facts stated once for every constructor of the instruction syntax. -/

namespace Sys2Proof.Laws.Length

open Sys2Proof Sys2Proof.Machine

/-- R48, R57: the encoding of an instruction has the length its first byte gives, 1, 2, 3 or 5 bytes. -/
def Statement (i : Instr) : Prop :=
  ∃ b rest, encode i = b :: rest ∧ (encode i).length = instrLength b ∧
    ((encode i).length = 1 ∨ (encode i).length = 2 ∨ (encode i).length = 3 ∨ (encode i).length = 5)

/-- The base forms. -/
theorem of_base {i : Instr} {b : Byte} (h : encode i = [b]) (ho : opcode b ≠ 3#2) : Statement i :=
  ⟨b, [], h, by simp [h, instrLength, ho], by simp [h]⟩

/-- The extended forms. -/
theorem of_extended {i : Instr} {x : BitVec 4} {sel : BitVec 2} {raw : Word}
    (h : extendedFields i = some (x, sel, raw)) : Statement i := by
  obtain ⟨he, _⟩ := encode_of_extendedFields h
  obtain ⟨ho, hl, _⟩ := escapeByte_fields x sel
  refine ⟨escapeByte x sel, _, he, ?_, ?_⟩
  · rw [he, encodeExt_length, instrLength, if_pos ho, hl]
  · rw [he, encodeExt_length]
    rcases selector_cases sel with rfl | rfl | rfl | rfl <;> simp

theorem opcode_baseByte (op : BitVec 2) (imm : BitVec 6) : opcode (baseByte op imm) = op := by
  revert op imm; decide

theorem movex (imm : BitVec 6) : Statement (.movex imm) := of_base rfl (by simp [opcode_baseByte])
theorem movey (imm : BitVec 6) : Statement (.movey imm) := of_base rfl (by simp [opcode_baseByte])
theorem wait (imm : BitVec 6) : Statement (.wait imm) := of_base rfl (by simp [opcode_baseByte])
theorem extMovex (sel : BitVec 2) (raw : Word) : Statement (.extMovex sel raw) := of_extended rfl
theorem extMovey (sel : BitVec 2) (raw : Word) : Statement (.extMovey sel raw) := of_extended rfl
theorem extWait (sel : BitVec 2) (raw : Word) : Statement (.extWait sel raw) := of_extended rfl
theorem extTogglePen (sel : BitVec 2) (raw : Word) : Statement (.extTogglePen sel raw) := of_extended rfl
theorem extClear (sel : BitVec 2) (raw : Word) : Statement (.extClear sel raw) := of_extended rfl
theorem extShowAndWait (sel : BitVec 2) (raw : Word) : Statement (.extShowAndWait sel raw) := of_extended rfl
theorem extSetColour (sel : BitVec 2) (raw : Word) : Statement (.extSetColour sel raw) := of_extended rfl
theorem unrecognizedExt7 (sel : BitVec 2) (raw : Word) : Statement (.unrecognizedExt7 sel raw) := of_extended rfl
theorem unrecognizedExt8 (low : BitVec 3) (sel : BitVec 2) (raw : Word) : Statement (.unrecognizedExt8 low sel raw) :=
  of_extended rfl

end Sys2Proof.Laws.Length
end

