-- ==== Sys2Proof/Laws/Run.lean ====
section
/-! SUPPORT. Runs of the machine, taken apart at their first step, their last step, or anywhere between. -/

namespace Sys2Proof.Machine

@[simp] theorem run_zero (s : State) : core.run 0 s = .next s := rfl

/-- A run whose first step is known. -/
theorem run_of_step {s t : State} (k : Nat) (h : step s = .next t) : core.run (k + 1) s = core.run k t := by
  have : core.step s = .next t := h
  simp only [Host.Core.run, this]

/-- A run of at least one step begins with a step. -/
theorem step_of_run_succ {k : Nat} {s u : State} (h : core.run (k + 1) s = .next u) :
    ∃ t, step s = .next t ∧ core.run k t = .next u := by
  cases e : step s with
  | next t => exact ⟨t, rfl, (run_of_step k e).symm.trans h⟩
  | fault f => have : core.step s = .fault f := e; simp [Host.Core.run, this] at h
  | refused r => have : core.step s = .refused r := e; simp [Host.Core.run, this] at h

/-- Two runs, one after the other. -/
theorem run_add {j : Nat} (k : Nat) {s t : State} (h : core.run j s = .next t) :
    core.run (j + k) s = core.run k t := by
  induction j generalizing s with
  | zero => cases h; simp
  | succ j ih =>
    obtain ⟨u, hs, hr⟩ := step_of_run_succ h
    rw [Nat.add_right_comm, run_of_step _ hs, ih hr]

/-- A run and one step more. -/
theorem run_succ {j : Nat} {s t : State} (h : core.run j s = .next t) : core.run (j + 1) s = step t := by
  rw [run_add 1 h]
  cases e : step t with
  | next u => rw [run_of_step 0 e]; rfl
  | fault f => have : core.step t = .fault f := e; simp only [Host.Core.run, this]; rfl
  | refused r => have : core.step t = .refused r := e; simp only [Host.Core.run, this]; rfl

/-- A property that every step keeps holds at the end of every run that starts with it. -/
theorem run_keeps {P : State → Prop} (keep : ∀ s t, P s → step s = .next t → P t) {k : Nat} {s t : State} (hs : P s)
    (h : core.run k s = .next t) : P t := by
  induction k generalizing s with
  | zero => cases h; exact hs
  | succ k ih =>
    obtain ⟨u, hu, hr⟩ := step_of_run_succ h
    exact ih (keep s u hs hu) hr

/-! ### Counting the events taken -/

@[simp] theorem eventsTaken_zero (s : State) : eventsTaken 0 s = 0 := rfl

/-- The count over a first step that takes an event, and over one that takes none. -/
theorem eventsTaken_of_takes {s t : State} (k : Nat) (h : step s = .next t) (ht : s.takesEvent) :
    eventsTaken (k + 1) s = eventsTaken k t + 1 := by
  simp only [eventsTaken, h, if_pos ht]; omega

theorem eventsTaken_of_not_takes {s t : State} (k : Nat) (h : step s = .next t) (ht : ¬ s.takesEvent) :
    eventsTaken (k + 1) s = eventsTaken k t := by
  simp only [eventsTaken, h, if_neg ht]; omega

end Sys2Proof.Machine
end

