-- ==== Sys2Proof/Laws/State.lean ====
section
/-! SUPPORT. One lemma for each field under each update of the state, so that no proof unfolds a record update. -/

namespace Sys2Proof.Machine

section

variable (s : State)

/-! `State.tick` -/

@[simp] theorem State.tick_st :
    s.tick.st = s.st := rfl
@[simp] theorem State.tick_extOp :
    s.tick.extOp = s.extOp := rfl
@[simp] theorem State.tick_byteCount :
    s.tick.byteCount = s.byteCount := rfl
@[simp] theorem State.tick_remaining :
    s.tick.remaining = s.remaining := rfl
@[simp] theorem State.tick_acc :
    s.tick.acc = s.acc := rfl
@[simp] theorem State.tick_instStart :
    s.tick.instStart = s.instStart := rfl
@[simp] theorem State.tick_pos :
    s.tick.pos = s.pos := rfl
@[simp] theorem State.tick_errKind :
    s.tick.errKind = s.errKind := rfl
@[simp] theorem State.tick_errOffset :
    s.tick.errOffset = s.errOffset := rfl
@[simp] theorem State.tick_out :
    s.tick.out = s.out := rfl
@[simp] theorem State.tick_source :
    s.tick.source = s.source := rfl
@[simp] theorem State.tick_delivered :
    s.tick.delivered = s.delivered := rfl
@[simp] theorem State.tick_env :
    s.tick.env = s.env.later := rfl

/-! `State.takeOpcode` -/

@[simp] theorem State.takeOpcode_st :
    s.takeOpcode.st = s.st := rfl
@[simp] theorem State.takeOpcode_extOp :
    s.takeOpcode.extOp = s.extOp := rfl
@[simp] theorem State.takeOpcode_byteCount :
    s.takeOpcode.byteCount = s.byteCount := rfl
@[simp] theorem State.takeOpcode_remaining :
    s.takeOpcode.remaining = s.remaining := rfl
@[simp] theorem State.takeOpcode_acc :
    s.takeOpcode.acc = s.acc := rfl
@[simp] theorem State.takeOpcode_instStart :
    s.takeOpcode.instStart = s.pos := rfl
@[simp] theorem State.takeOpcode_pos :
    s.takeOpcode.pos = s.pos + 1 := rfl
@[simp] theorem State.takeOpcode_errKind :
    s.takeOpcode.errKind = s.errKind := rfl
@[simp] theorem State.takeOpcode_errOffset :
    s.takeOpcode.errOffset = s.errOffset := rfl
@[simp] theorem State.takeOpcode_out :
    s.takeOpcode.out = s.out := rfl
@[simp] theorem State.takeOpcode_source :
    s.takeOpcode.source = s.source := rfl
@[simp] theorem State.takeOpcode_delivered :
    s.takeOpcode.delivered = s.delivered := rfl
@[simp] theorem State.takeOpcode_env :
    s.takeOpcode.env = s.env := rfl

/-! `State.latchEscape` -/

@[simp] theorem State.latchEscape_st (x : BitVec 4) (sel : BitVec 2) :
    (s.latchEscape x sel).st = s.st := rfl
@[simp] theorem State.latchEscape_extOp (x : BitVec 4) (sel : BitVec 2) :
    (s.latchEscape x sel).extOp = x := rfl
@[simp] theorem State.latchEscape_byteCount (x : BitVec 4) (sel : BitVec 2) :
    (s.latchEscape x sel).byteCount = operandCount sel := rfl
@[simp] theorem State.latchEscape_remaining (x : BitVec 4) (sel : BitVec 2) :
    (s.latchEscape x sel).remaining = operandCount sel := rfl
@[simp] theorem State.latchEscape_acc (x : BitVec 4) (sel : BitVec 2) :
    (s.latchEscape x sel).acc = 0#32 := rfl
@[simp] theorem State.latchEscape_instStart (x : BitVec 4) (sel : BitVec 2) :
    (s.latchEscape x sel).instStart = s.pos := rfl
@[simp] theorem State.latchEscape_pos (x : BitVec 4) (sel : BitVec 2) :
    (s.latchEscape x sel).pos = s.pos + 1 := rfl
@[simp] theorem State.latchEscape_errKind (x : BitVec 4) (sel : BitVec 2) :
    (s.latchEscape x sel).errKind = s.errKind := rfl
@[simp] theorem State.latchEscape_errOffset (x : BitVec 4) (sel : BitVec 2) :
    (s.latchEscape x sel).errOffset = s.errOffset := rfl
@[simp] theorem State.latchEscape_out (x : BitVec 4) (sel : BitVec 2) :
    (s.latchEscape x sel).out = s.out := rfl
@[simp] theorem State.latchEscape_source (x : BitVec 4) (sel : BitVec 2) :
    (s.latchEscape x sel).source = s.source := rfl
@[simp] theorem State.latchEscape_delivered (x : BitVec 4) (sel : BitVec 2) :
    (s.latchEscape x sel).delivered = s.delivered := rfl
@[simp] theorem State.latchEscape_env (x : BitVec 4) (sel : BitVec 2) :
    (s.latchEscape x sel).env = s.env := rfl

/-! `State.awaitOperand` -/

@[simp] theorem State.awaitOperand_st (x : BitVec 4) (sel : BitVec 2) :
    (s.awaitOperand x sel).st = .operand := rfl
@[simp] theorem State.awaitOperand_extOp (x : BitVec 4) (sel : BitVec 2) :
    (s.awaitOperand x sel).extOp = x := rfl
@[simp] theorem State.awaitOperand_byteCount (x : BitVec 4) (sel : BitVec 2) :
    (s.awaitOperand x sel).byteCount = operandCount sel := rfl
@[simp] theorem State.awaitOperand_remaining (x : BitVec 4) (sel : BitVec 2) :
    (s.awaitOperand x sel).remaining = operandCount sel := rfl
@[simp] theorem State.awaitOperand_acc (x : BitVec 4) (sel : BitVec 2) :
    (s.awaitOperand x sel).acc = 0#32 := rfl
@[simp] theorem State.awaitOperand_instStart (x : BitVec 4) (sel : BitVec 2) :
    (s.awaitOperand x sel).instStart = s.pos := rfl
@[simp] theorem State.awaitOperand_pos (x : BitVec 4) (sel : BitVec 2) :
    (s.awaitOperand x sel).pos = s.pos + 1 := rfl
@[simp] theorem State.awaitOperand_errKind (x : BitVec 4) (sel : BitVec 2) :
    (s.awaitOperand x sel).errKind = s.errKind := rfl
@[simp] theorem State.awaitOperand_errOffset (x : BitVec 4) (sel : BitVec 2) :
    (s.awaitOperand x sel).errOffset = s.errOffset := rfl
@[simp] theorem State.awaitOperand_out (x : BitVec 4) (sel : BitVec 2) :
    (s.awaitOperand x sel).out = s.out := rfl
@[simp] theorem State.awaitOperand_source (x : BitVec 4) (sel : BitVec 2) :
    (s.awaitOperand x sel).source = s.source := rfl
@[simp] theorem State.awaitOperand_delivered (x : BitVec 4) (sel : BitVec 2) :
    (s.awaitOperand x sel).delivered = s.delivered := rfl
@[simp] theorem State.awaitOperand_env (x : BitVec 4) (sel : BitVec 2) :
    (s.awaitOperand x sel).env = s.env := rfl

/-! `State.takeOperand` -/

@[simp] theorem State.takeOperand_st (a : Word) :
    (s.takeOperand a).st = s.st := rfl
@[simp] theorem State.takeOperand_extOp (a : Word) :
    (s.takeOperand a).extOp = s.extOp := rfl
@[simp] theorem State.takeOperand_byteCount (a : Word) :
    (s.takeOperand a).byteCount = s.byteCount := rfl
@[simp] theorem State.takeOperand_remaining (a : Word) :
    (s.takeOperand a).remaining = s.remaining - 1#3 := rfl
@[simp] theorem State.takeOperand_acc (a : Word) :
    (s.takeOperand a).acc = a := rfl
@[simp] theorem State.takeOperand_instStart (a : Word) :
    (s.takeOperand a).instStart = s.instStart := rfl
@[simp] theorem State.takeOperand_pos (a : Word) :
    (s.takeOperand a).pos = s.pos + 1 := rfl
@[simp] theorem State.takeOperand_errKind (a : Word) :
    (s.takeOperand a).errKind = s.errKind := rfl
@[simp] theorem State.takeOperand_errOffset (a : Word) :
    (s.takeOperand a).errOffset = s.errOffset := rfl
@[simp] theorem State.takeOperand_out (a : Word) :
    (s.takeOperand a).out = s.out := rfl
@[simp] theorem State.takeOperand_source (a : Word) :
    (s.takeOperand a).source = s.source := rfl
@[simp] theorem State.takeOperand_delivered (a : Word) :
    (s.takeOperand a).delivered = s.delivered := rfl
@[simp] theorem State.takeOperand_env (a : Word) :
    (s.takeOperand a).env = s.env := rfl

/-! `State.emit` -/

@[simp] theorem State.emit_st (v : Instruction) :
    (s.emit v).st = .fetch := rfl
@[simp] theorem State.emit_extOp (v : Instruction) :
    (s.emit v).extOp = s.extOp := rfl
@[simp] theorem State.emit_byteCount (v : Instruction) :
    (s.emit v).byteCount = s.byteCount := rfl
@[simp] theorem State.emit_remaining (v : Instruction) :
    (s.emit v).remaining = s.remaining := rfl
@[simp] theorem State.emit_acc (v : Instruction) :
    (s.emit v).acc = s.acc := rfl
@[simp] theorem State.emit_instStart (v : Instruction) :
    (s.emit v).instStart = s.instStart := rfl
@[simp] theorem State.emit_pos (v : Instruction) :
    (s.emit v).pos = s.pos := rfl
@[simp] theorem State.emit_errKind (v : Instruction) :
    (s.emit v).errKind = s.errKind := rfl
@[simp] theorem State.emit_errOffset (v : Instruction) :
    (s.emit v).errOffset = s.errOffset := rfl
@[simp] theorem State.emit_out (v : Instruction) :
    (s.emit v).out = { valid := true, kind := v.kind, operand := v.operand } := rfl
@[simp] theorem State.emit_source (v : Instruction) :
    (s.emit v).source = s.source := rfl
@[simp] theorem State.emit_delivered (v : Instruction) :
    (s.emit v).delivered = s.delivered := rfl
@[simp] theorem State.emit_env (v : Instruction) :
    (s.emit v).env = s.env := rfl

/-! `State.deliver` -/

@[simp] theorem State.deliver_st :
    s.deliver.st = s.st := rfl
@[simp] theorem State.deliver_extOp :
    s.deliver.extOp = s.extOp := rfl
@[simp] theorem State.deliver_byteCount :
    s.deliver.byteCount = s.byteCount := rfl
@[simp] theorem State.deliver_remaining :
    s.deliver.remaining = s.remaining := rfl
@[simp] theorem State.deliver_acc :
    s.deliver.acc = s.acc := rfl
@[simp] theorem State.deliver_instStart :
    s.deliver.instStart = s.instStart := rfl
@[simp] theorem State.deliver_pos :
    s.deliver.pos = s.pos := rfl
@[simp] theorem State.deliver_errKind :
    s.deliver.errKind = s.errKind := rfl
@[simp] theorem State.deliver_errOffset :
    s.deliver.errOffset = s.errOffset := rfl
@[simp] theorem State.deliver_out :
    s.deliver.out = { s.out with valid := false } := rfl
@[simp] theorem State.deliver_source :
    s.deliver.source = s.source := rfl
@[simp] theorem State.deliver_delivered :
    s.deliver.delivered = s.delivered ++ [s.out.instruction] := rfl
@[simp] theorem State.deliver_env :
    s.deliver.env = s.env := rfl

/-! `State.halt` -/

@[simp] theorem State.halt_st :
    s.halt.st = .halted := rfl
@[simp] theorem State.halt_extOp :
    s.halt.extOp = s.extOp := rfl
@[simp] theorem State.halt_byteCount :
    s.halt.byteCount = s.byteCount := rfl
@[simp] theorem State.halt_remaining :
    s.halt.remaining = s.remaining := rfl
@[simp] theorem State.halt_acc :
    s.halt.acc = s.acc := rfl
@[simp] theorem State.halt_instStart :
    s.halt.instStart = s.instStart := rfl
@[simp] theorem State.halt_pos :
    s.halt.pos = s.pos := rfl
@[simp] theorem State.halt_errKind :
    s.halt.errKind = s.errKind := rfl
@[simp] theorem State.halt_errOffset :
    s.halt.errOffset = s.errOffset := rfl
@[simp] theorem State.halt_out :
    s.halt.out = s.out := rfl
@[simp] theorem State.halt_source :
    s.halt.source = s.source := rfl
@[simp] theorem State.halt_delivered :
    s.halt.delivered = s.delivered := rfl
@[simp] theorem State.halt_env :
    s.halt.env = s.env := rfl

/-! `State.raiseFault` -/

@[simp] theorem State.raiseFault_st (k : ErrKind) (off : Nat) :
    (s.raiseFault k off).st = .faulted := rfl
@[simp] theorem State.raiseFault_extOp (k : ErrKind) (off : Nat) :
    (s.raiseFault k off).extOp = s.extOp := rfl
@[simp] theorem State.raiseFault_byteCount (k : ErrKind) (off : Nat) :
    (s.raiseFault k off).byteCount = s.byteCount := rfl
@[simp] theorem State.raiseFault_remaining (k : ErrKind) (off : Nat) :
    (s.raiseFault k off).remaining = s.remaining := rfl
@[simp] theorem State.raiseFault_acc (k : ErrKind) (off : Nat) :
    (s.raiseFault k off).acc = s.acc := rfl
@[simp] theorem State.raiseFault_instStart (k : ErrKind) (off : Nat) :
    (s.raiseFault k off).instStart = s.instStart := rfl
@[simp] theorem State.raiseFault_pos (k : ErrKind) (off : Nat) :
    (s.raiseFault k off).pos = s.pos := rfl
@[simp] theorem State.raiseFault_errKind (k : ErrKind) (off : Nat) :
    (s.raiseFault k off).errKind = k := rfl
@[simp] theorem State.raiseFault_errOffset (k : ErrKind) (off : Nat) :
    (s.raiseFault k off).errOffset = off := rfl
@[simp] theorem State.raiseFault_out (k : ErrKind) (off : Nat) :
    (s.raiseFault k off).out = s.out := rfl
@[simp] theorem State.raiseFault_source (k : ErrKind) (off : Nat) :
    (s.raiseFault k off).source = s.source := rfl
@[simp] theorem State.raiseFault_delivered (k : ErrKind) (off : Nat) :
    (s.raiseFault k off).delivered = s.delivered := rfl
@[simp] theorem State.raiseFault_env (k : ErrKind) (off : Nat) :
    (s.raiseFault k off).env = s.env := rfl

/-! `State.restart` -/

@[simp] theorem State.restart_st (stream : List Byte) :
    (s.restart stream).st = State.reset.st := rfl
@[simp] theorem State.restart_extOp (stream : List Byte) :
    (s.restart stream).extOp = State.reset.extOp := rfl
@[simp] theorem State.restart_byteCount (stream : List Byte) :
    (s.restart stream).byteCount = State.reset.byteCount := rfl
@[simp] theorem State.restart_remaining (stream : List Byte) :
    (s.restart stream).remaining = State.reset.remaining := rfl
@[simp] theorem State.restart_acc (stream : List Byte) :
    (s.restart stream).acc = State.reset.acc := rfl
@[simp] theorem State.restart_instStart (stream : List Byte) :
    (s.restart stream).instStart = State.reset.instStart := rfl
@[simp] theorem State.restart_pos (stream : List Byte) :
    (s.restart stream).pos = State.reset.pos := rfl
@[simp] theorem State.restart_errKind (stream : List Byte) :
    (s.restart stream).errKind = State.reset.errKind := rfl
@[simp] theorem State.restart_errOffset (stream : List Byte) :
    (s.restart stream).errOffset = State.reset.errOffset := rfl
@[simp] theorem State.restart_out (stream : List Byte) :
    (s.restart stream).out = State.reset.out := rfl
@[simp] theorem State.restart_source (stream : List Byte) :
    (s.restart stream).source = stream := rfl
@[simp] theorem State.restart_delivered (stream : List Byte) :
    (s.restart stream).delivered = State.reset.delivered := rfl
@[simp] theorem State.restart_env (stream : List Byte) :
    (s.restart stream).env = s.env := rfl

end

end Sys2Proof.Machine
end

