-- ==== Sys2Proof/Laws/Step.lean ====
section
/-! SUPPORT. What a meaning, an edge and a step can do, each said once. -/

namespace Sys2Proof.Machine

/-! ### The environment, and what has been emitted -/

@[simp] theorem Env.eager_now : Env.eager.now = Pins.eager := rfl
@[simp] theorem Env.eager_later : Env.eager.later = Env.eager := rfl

/-- A schedule with no reset has none now, and none later. -/
theorem Env.noReset_now {e : Env} (h : e.noReset) : e.now.rst = none := by
  obtain ⟨q, r⟩ := e
  cases q with
  | nil => exact h.2
  | cons p q => exact h.1 p (by simp)

theorem Env.noReset_later {e : Env} (h : e.noReset) : e.later.noReset :=
  ⟨fun p hp => h.1 p (List.mem_of_mem_tail hp), h.2⟩

/-- With eager agents and nothing on offer, a state that can take an event does. -/
theorem takesEvent_of_eager {s : State} (he : s.env = Env.eager) (hv : s.out.valid = false)
    (hs : s.st = .fetch ∨ s.st = .operand) : s.takesEvent := by
  refine ⟨by rw [he]; rfl, by rw [he]; rfl, ?_⟩
  rcases hs with h | h <;> simp [State.inReady, h, hv]

theorem tick_of_eager {s : State} (he : s.env = Env.eager) : s.tick = s := by
  obtain ⟨_, _, _, _, _, _, _, _, _, _, _, _, e⟩ := s
  cases he; rfl

@[simp] theorem State.tick_emitted (s : State) : s.tick.emitted = s.emitted := rfl
@[simp] theorem State.tick_boundary (s : State) : s.tick.boundary = s.boundary := rfl
@[simp] theorem State.tick_inReady (s : State) : s.tick.inReady = s.inReady := rfl

/-- `out` gives back the Instruction it was loaded with (R26, R27). -/
@[simp] theorem OutReg.instruction_of (v : Instruction) (b : Bool) :
    ({ valid := b, kind := v.kind, operand := v.operand } : OutReg).instruction = v := by cases v <;> rfl

/-- A delivery moves the Instruction on offer, and changes nothing of what has been emitted. -/
theorem State.deliver_emitted {s : State} (h : s.out.valid = true) : s.deliver.emitted = s.emitted := by
  simp [State.emitted, OutReg.offered, h, OutReg.instruction]

/-- An emission into an empty `out` adds one Instruction. -/
theorem State.emit_emitted {s : State} (v : Instruction) (h : s.out.valid = false) :
    (s.emit v).emitted = s.emitted ++ [v] := by
  simp [State.emitted, OutReg.offered, h]

/-! ### Meanings -/

/-- The reading part of an instruction's last step. -/
def lastRead (i : Instr) (s : State) : State :=
  match extendedFields i with
  | none => s.takeOpcode
  | some (x, sel, raw) => s.takeLast x sel raw

/-- Every meaning reads its last byte, then emits what it stands for or takes the unrecognized-opcode fault. -/
theorem exec_eq (i : Instr) (s : State) :
    exec i s = .next (match instructionOf i with
      | some v => (lastRead i s).emit v
      | none => (lastRead i s).raiseFault .unrecognizedExtendedOpcode (lastRead i s).instStart) := by
  cases i <;>
    simp [exec, instructionOf, lastRead, extendedFields, execMovex, execMovey, execWait, execExtMovex, execExtMovey,
      execExtWait, execExtTogglePen, execExtClear, execExtShowAndWait, execExtSetColour, execUnrecognizedExt7,
      execUnrecognizedExt8, State.dispatchUnrecognized, int32_signedImmediate]

/-- The two ways the last byte of an escape sequence is read. -/
theorem takeLast_cases (x : BitVec 4) (sel : BitVec 2) (raw : Word) (s : State) :
    (sel = 0#2 ∧ s.takeLast x sel raw = s.latchEscape x sel) ∨
      (sel ≠ 0#2 ∧ s.takeLast x sel raw = s.takeOperand raw) := by
  unfold State.takeLast; split <;> simp_all

/-- No reading of a last byte touches the surroundings, `out` or the error registers. -/
theorem lastRead_keeps (i : Instr) (s : State) :
    (lastRead i s).source = s.source ∧ (lastRead i s).delivered = s.delivered ∧ (lastRead i s).env = s.env ∧
      (lastRead i s).out = s.out ∧ (lastRead i s).errKind = s.errKind ∧ (lastRead i s).errOffset = s.errOffset ∧
      (lastRead i s).pos = s.pos + 1 := by
  unfold lastRead
  split
  · simp
  · rename_i x sel raw _
    rcases takeLast_cases x sel raw s with ⟨_, e⟩ | ⟨_, e⟩ <;> simp [e]

/-- No meaning touches the environment's schedule. -/
theorem exec_env {i : Instr} {s t : State} (h : exec i s = .next t) : t.env = s.env := by
  rw [exec_eq] at h
  obtain rfl := Host.Outcome.next.inj h
  cases instructionOf i <;> simp [(lastRead_keeps i s).2.2.1]

/-! ### Edges and steps -/

/-- Everything one edge can come to. -/
theorem edge_cases (s : State) :
    (∃ stream, s.env.now.rst = some stream ∧ s.edge = .moved (s.tick.restart stream)) ∨
    (s.env.now.rst = none ∧ s.out.valid = true ∧ s.env.now.outReady = true ∧ s.edge = .moved s.tick.deliver) ∨
    (s.env.now.rst = none ∧ s.out.valid = true ∧ s.env.now.outReady = false ∧ s.edge = .moved s.tick) ∨
    (s.env.now.rst = none ∧ s.out.valid = false ∧ ¬ s.takesEvent ∧ s.edge = .moved s.tick) ∨
    (s.takesEvent ∧ s.edge = s.tick.accept) := by
  unfold State.edge State.takesEvent State.inReady
  cases hr : s.env.now.rst with
  | some stream => simp
  | none => cases hv : s.out.valid <;> cases ho : s.env.now.outReady <;> cases hi : s.env.now.inValid <;>
      cases hs : s.st <;> simp

/-- Everything a taken event can come to. -/
theorem accept_cases {s : State} (h : s.inReady = true) :
    (s.st = .fetch ∧ s.source[s.pos]? = none ∧ s.accept = .moved s.halt) ∨
    (s.st = .operand ∧ s.source[s.pos]? = none ∧ s.accept = .moved (s.raiseFault .truncatedStream s.instStart)) ∨
    (∃ b i, s.st = .fetch ∧ s.source[s.pos]? = some b ∧ baseInstr b = some i ∧ s.accept = .run i s) ∨
    (∃ b, s.st = .fetch ∧ s.source[s.pos]? = some b ∧ opcode b = 3#2 ∧ lengthSelector b = 0#2 ∧
      s.accept = .run (extInstr (extOpOf b) 0#2 0#32) s) ∨
    (∃ b, s.st = .fetch ∧ s.source[s.pos]? = some b ∧ opcode b = 3#2 ∧ lengthSelector b ≠ 0#2 ∧
      s.accept = .moved (s.awaitOperand (extOpOf b) (lengthSelector b))) ∨
    (∃ d, s.st = .operand ∧ s.source[s.pos]? = some d ∧ s.remaining ≠ 1#3 ∧
      s.accept = .moved (s.takeOperand (shiftIn s.acc d))) ∨
    (∃ d sel, s.st = .operand ∧ s.source[s.pos]? = some d ∧ s.remaining = 1#3 ∧ s.byteCount = operandCount sel ∧
      sel ≠ 0#2 ∧ s.accept = .run (extInstr s.extOp sel (shiftIn s.acc d)) s) ∨
    (∃ d, s.st = .operand ∧ s.source[s.pos]? = some d ∧ s.remaining = 1#3 ∧
      (∀ sel, s.byteCount = operandCount sel → sel = 0#2) ∧ s.accept = .stop .byteCountOutOfRange) := by
  have hpt : s.readEvent = eventAt s.source s.pos := rfl
  cases hp : s.source[s.pos]? with
  | none =>
    have hev : s.readEvent = .eos := by rw [hpt, eventAt, hp]
    cases hs : s.st with
    | fetch => exact .inl ⟨rfl, rfl, by simp [State.accept, hev, State.takeEos, hs]⟩
    | operand => exact .inr (.inl ⟨rfl, rfl, by simp [State.accept, hev, State.takeEos, hs]⟩)
    | halted => simp [State.inReady, hs] at h
    | faulted => simp [State.inReady, hs] at h
  | some b =>
    have hev : s.readEvent = .byte b := by rw [hpt, eventAt, hp]
    cases hs : s.st with
    | fetch =>
      have ha : s.accept = s.fetchByte b := by simp [State.accept, hev, State.acceptByte, hs]
      cases hb : baseInstr b with
      | some i => exact .inr (.inr (.inl ⟨b, i, rfl, rfl, hb, by rw [ha, State.fetchByte, hb]⟩))
      | none =>
        have ho := (baseInstr_eq_none b).1 hb
        by_cases hl : lengthSelector b = 0#2
        · exact .inr (.inr (.inr (.inl ⟨b, rfl, rfl, ho, hl, by rw [ha, State.fetchByte, hb]; exact if_pos hl⟩)))
        · exact .inr (.inr (.inr (.inr (.inl
            ⟨b, rfl, rfl, ho, hl, by rw [ha, State.fetchByte, hb]; exact if_neg hl⟩))))
    | operand =>
      have ha : s.accept = s.operandByte b := by simp [State.accept, hev, State.acceptByte, hs]
      by_cases hr : s.remaining = 1#3
      · have inj : ∀ a c : BitVec 2, operandCount a = operandCount c → a = c := by decide
        cases hsel : selectorOf s.byteCount with
        | none =>
          refine .inr (.inr (.inr (.inr (.inr (.inr (.inr ⟨b, rfl, rfl, hr, fun sel e => ?_, ?_⟩))))))
          · rw [e, selectorOf_operandCount] at hsel; cases hsel
          · rw [ha, State.operandByte, if_pos hr, hsel]
        | some sel =>
          have e := (selectorOf_eq_some _ _).1 hsel
          by_cases h0 : sel = 0#2
          · refine .inr (.inr (.inr (.inr (.inr (.inr (.inr ⟨b, rfl, rfl, hr, fun c ec => ?_, ?_⟩))))))
            · rw [← h0]; exact inj _ _ (ec.symm.trans e)
            · rw [ha, State.operandByte, if_pos hr, hsel]; exact if_pos h0
          · refine .inr (.inr (.inr (.inr (.inr (.inr (.inl ⟨b, sel, rfl, rfl, hr, e, h0, ?_⟩))))))
            rw [ha, State.operandByte, if_pos hr, hsel]; exact if_neg h0
      · exact .inr (.inr (.inr (.inr (.inr (.inl
          ⟨b, rfl, rfl, hr, by rw [ha, State.operandByte, if_neg hr]⟩)))))
    | halted => simp [State.inReady, hs] at h
    | faulted => simp [State.inReady, hs] at h

/-- A step is its edge, or the meaning of the instruction the edge completes. -/
theorem step_of_moved {s t : State} (h : s.edge = .moved t) : step s = .next t := by simp [step, h]

theorem step_of_run {s t : State} {i : Instr} (h : s.edge = .run i t) : step s = exec i t := by simp [step, h]

theorem step_of_stop {s : State} {f : Fault} (h : s.edge = .stop f) : step s = .fault f := by simp [step, h]

/-- Everything a step that answers a next state can have done. -/
theorem step_cases {s t : State} (h : step s = .next t) :
    (∃ stream, s.env.now.rst = some stream ∧ t = s.tick.restart stream) ∨
    (s.env.now.rst = none ∧ s.out.valid = true ∧ s.env.now.outReady = true ∧ t = s.tick.deliver) ∨
    (s.env.now.rst = none ∧ ¬ s.takesEvent ∧ t = s.tick) ∨
    (s.takesEvent ∧ s.st = .fetch ∧ s.source[s.pos]? = none ∧ t = s.tick.halt) ∨
    (s.takesEvent ∧ s.st = .operand ∧ s.source[s.pos]? = none ∧
      t = s.tick.raiseFault .truncatedStream s.instStart) ∨
    (∃ b, s.takesEvent ∧ s.st = .fetch ∧ s.source[s.pos]? = some b ∧ opcode b = 3#2 ∧ lengthSelector b ≠ 0#2 ∧
      t = s.tick.awaitOperand (extOpOf b) (lengthSelector b)) ∨
    (∃ d, s.takesEvent ∧ s.st = .operand ∧ s.source[s.pos]? = some d ∧ s.remaining ≠ 1#3 ∧
      t = s.tick.takeOperand (shiftIn s.acc d)) ∨
    (∃ b i, s.takesEvent ∧ s.st = .fetch ∧ s.source[s.pos]? = some b ∧ encode i = [b] ∧ i.wellFormed = true ∧
      (baseInstr b = some i ∨ opcode b = 3#2 ∧ lengthSelector b = 0#2 ∧ i = extInstr (extOpOf b) 0#2 0#32) ∧
      exec i s.tick = .next t) ∨
    (∃ d sel, s.takesEvent ∧ s.st = .operand ∧ s.source[s.pos]? = some d ∧ s.remaining = 1#3 ∧
      s.byteCount = operandCount sel ∧ sel ≠ 0#2 ∧
      exec (extInstr s.extOp sel (shiftIn s.acc d)) s.tick = .next t) := by
  rcases edge_cases s with ⟨stream, hr, e⟩ | ⟨hr, hv, ho, e⟩ | ⟨hr, hv, ho, e⟩ | ⟨hr, hv, hn, e⟩ | ⟨ht, e⟩
  · rw [step_of_moved e] at h; cases h; exact .inl ⟨stream, hr, rfl⟩
  · rw [step_of_moved e] at h; cases h; exact .inr (.inl ⟨hr, hv, ho, rfl⟩)
  · rw [step_of_moved e] at h; cases h
    refine .inr (.inr (.inl ⟨hr, ?_, rfl⟩))
    simp [State.takesEvent, State.inReady, hv]
  · rw [step_of_moved e] at h; cases h; exact .inr (.inr (.inl ⟨hr, hn, rfl⟩))
  · have hready : s.tick.inReady = true := ht.2.2
    rcases accept_cases hready with ⟨hs, hp, ea⟩ | ⟨hs, hp, ea⟩ | ⟨b, i, hs, hp, hb, ea⟩ | ⟨b, hs, hp, ho, hl, ea⟩ |
      ⟨b, hs, hp, ho, hl, ea⟩ | ⟨d, hs, hp, hr, ea⟩ | ⟨d, sel, hs, hp, hr, hc, h0, ea⟩ | ⟨d, hs, hp, hr, hc, ea⟩
    · rw [step_of_moved (e.trans ea)] at h; cases h
      exact .inr (.inr (.inr (.inl ⟨ht, hs, hp, rfl⟩)))
    · rw [step_of_moved (e.trans ea)] at h; cases h
      exact .inr (.inr (.inr (.inr (.inl ⟨ht, hs, hp, rfl⟩))))
    · rw [step_of_run (e.trans ea)] at h
      obtain ⟨_, hw, he, _⟩ := baseInstr_eq_some hb
      exact .inr (.inr (.inr (.inr (.inr (.inr (.inr (.inl ⟨b, i, ht, hs, hp, he, hw, .inl hb, h⟩)))))))
    · rw [step_of_run (e.trans ea)] at h
      have hx := extendedFields_extInstr (extOpOf b) 0#2 0#32
      obtain ⟨he, hw⟩ := encode_of_extendedFields hx
      refine .inr (.inr (.inr (.inr (.inr (.inr (.inr (.inl
        ⟨b, _, ht, hs, hp, ?_, ?_, .inr ⟨ho, hl, rfl⟩, h⟩)))))))
      · rw [he, encodeExt, operandBytes_zero, ← hl, escapeByte_of_opcode ho]; rfl
      · rw [hw]; decide
    · rw [step_of_moved (e.trans ea)] at h; cases h
      exact .inr (.inr (.inr (.inr (.inr (.inl ⟨b, ht, hs, hp, ho, hl, rfl⟩)))))
    · rw [step_of_moved (e.trans ea)] at h; cases h
      exact .inr (.inr (.inr (.inr (.inr (.inr (.inl ⟨d, ht, hs, hp, hr, rfl⟩))))))
    · rw [step_of_run (e.trans ea)] at h
      exact .inr (.inr (.inr (.inr (.inr (.inr (.inr (.inr ⟨d, sel, ht, hs, hp, hr, hc, h0, h⟩)))))))
    · rw [step_of_stop (e.trans ea)] at h; cases h

/-- Every step passes one edge of the schedule, whatever else it does. -/
theorem step_env {s t : State} (h : step s = .next t) : t.env = s.env.later := by
  rcases step_cases h with ⟨_, _, rfl⟩ | ⟨_, _, _, rfl⟩ | ⟨_, _, rfl⟩ | ⟨_, _, _, rfl⟩ | ⟨_, _, _, rfl⟩ |
    ⟨_, _, _, _, _, _, rfl⟩ | ⟨_, _, _, _, _, rfl⟩ | ⟨_, _, _, _, _, _, _, _, hx⟩ | ⟨_, _, _, _, _, _, _, _, hx⟩
  iterate 7 rfl
  all_goals rw [exec_env hx]; rfl

end Sys2Proof.Machine
end

