-- ==== Sys2Proof/Tests/Slice0.lean ====
section
/-! SUPPORT. Small tests: ill-formed terms, words written out from the encoding tables of 30_encoding.md, single steps
whose expected values are the vectors of 95_test_vectors.md, and a witness for every statement with hypotheses. -/

namespace Sys2Proof.Tests

open Sys2Proof Sys2Proof.Machine

/-- Right after reset, with a stream presented and eager agents. -/
def start (source : List Byte) : State := State.load source Env.eager

/-- The next state of a step. -/
def after (s : State) : Option State :=
  match step s with
  | .next t => some t
  | .fault _ => none
  | .refused _ => none

/-- In OPERAND after the first byte of `E6 FF 74`, vector T1 step 1. -/
def midOperand : State :=
  { start [0xE6, 0xFF, 0x74] with st := .operand, extOp := 6, byteCount := 2, remaining := 2, pos := 1 }

/-- In OPERAND with one byte owed, vector T1 step 2. -/
def lastOwed : State := { midOperand with remaining := 1, acc := 0xFF, pos := 2 }

/-- With MoveX{10} on offer, after the byte 0A. -/
def offering : State :=
  { start [0x0A] with pos := 1, out := { valid := true, kind := .moveX, operand := 10 } }

/-! ### Well-formedness: an operand that does not fit its bytes is refused -/

theorem test_base_well_formed : (Instr.movex 0x3F).wellFormed = true := by decide
theorem test_ill_formed_none : (Instr.extMovex 0 1).wellFormed = false := by decide
theorem test_ill_formed_one : (Instr.extMovey 1 0x100).wellFormed = false := by decide
theorem test_ill_formed_two : (Instr.extWait 2 0x10000).wellFormed = false := by decide
theorem test_well_formed_four : (Instr.extSetColour 3 0xFFFFFFFF).wellFormed = true := by decide
theorem test_ill_formed_toggle : (Instr.extTogglePen 0 1).wellFormed = false := by decide
theorem test_ill_formed_clear : (Instr.extClear 0 1).wellFormed = false := by decide
theorem test_ill_formed_key : (Instr.extShowAndWait 0 1).wellFormed = false := by decide
theorem test_ill_formed_colour : (Instr.extSetColour 0 1).wellFormed = false := by decide
theorem test_ill_formed_seven : (Instr.unrecognizedExt7 0 1).wellFormed = false := by decide
theorem test_ill_formed_eight : (Instr.unrecognizedExt8 0 0 1).wellFormed = false := by decide

/-! ### Decoding: words written out bit by bit (R49 to R52) -/

theorem test_decode_movex : decode [0b00001010] = .ok (.movex 0b001010, []) := by rfl
theorem test_decode_movey : decode [0b01000011] = .ok (.movey 0b000011, []) := by rfl
theorem test_decode_wait : decode [0b10111111] = .ok (.wait 0b111111, []) := by rfl
theorem test_decode_ext_movex : decode [0b11010000, 0xCE] = .ok (.extMovex 1 0xCE, []) := by rfl
theorem test_decode_ext_movey : decode [0b11100001, 0x7F, 0xFF] = .ok (.extMovey 2 0x7FFF, []) := by rfl
theorem test_decode_ext_wait :
    decode [0b11110010, 0x00, 0x00, 0x01, 0x00] = .ok (.extWait 3 0x100, []) := by rfl
theorem test_decode_toggle : decode [0b11010011, 0x99] = .ok (.extTogglePen 1 0x99, []) := by rfl
theorem test_decode_clear : decode [0b11100100, 0x12, 0x34] = .ok (.extClear 2 0x1234, []) := by rfl
theorem test_decode_key : decode [0b11000101, 0x0A] = .ok (.extShowAndWait 0 0, [0x0A]) := by rfl
theorem test_decode_colour : decode [0b11100110, 0xFF, 0x74] = .ok (.extSetColour 2 0xFF74, []) := by rfl
theorem test_decode_seven : decode [0b11010111, 0x00] = .ok (.unrecognizedExt7 1 0, []) := by rfl
theorem test_decode_eight : decode [0b11001101] = .ok (.unrecognizedExt8 0b101 0 0, []) := by rfl
theorem test_decode_empty : decode [] = .error .endOfStream := by rfl
theorem test_decode_truncated : decode [0xF6, 0x01] = .error .truncatedOperand := by rfl
theorem test_table_word : decodeTableWord 16 0xCED0 = some (.extMovex 1 0xCE) := by decide
theorem test_table_short_word : decodeTableWord 8 0xF6 = some (.extSetColour 3 0) := by decide

/-! ### BitReader and codec: the vectors of 95_test_vectors.md §1 and §2 -/

theorem test_bits : bit 0x40 6 = 1 ∧ bit 0xDD 1 = 0 ∧ bit 0xDD 7 = 1 := by decide
theorem test_opcodes : opcode 0x80 = 2 ∧ opcode 0x40 = 1 := by decide
theorem test_fields_E6 : signed6 0xE6 = -26 ∧ unsigned6 0xE6 = 38 ∧ lengthSelector 0xE6 = 2 ∧ extOpOf 0xE6 = 6 := by
  decide
theorem test_next_power : nextPowerOfTwo 3 = 4 ∧ nextPowerOfTwo 50 = 64 ∧ nextPowerOfTwo 65 = 128 := by decide
theorem test_big_endian : readBigEndian [0xDE, 0xAD, 0xBE, 0xEF] = 0xDEADBEEF := by decide
theorem test_to_signed_source :
    toSigned 0b101 3 = -3 ∧ toSigned 0b1011 4 = -5 ∧ toSigned 0xCE 8 = -50 ∧ toSigned 6 4 = 6 ∧
      toSigned 0xFF74 16 = -140 := by decide
theorem test_to_signed_edges :
    toSigned 0 0 = 0 ∧ toSigned 1 1 = -1 ∧ toSigned 0x800000 24 = -8388608 ∧ toSigned 0xDEADBEEF 32 = -559038737 := by
  decide

/-! ### One instruction, one step: the Instruction offered (95 §2.5, §2.6) -/

theorem test_movex : (after (start [0x20])).map (·.out) = some ⟨true, .moveX, BitVec.ofInt 32 (-32)⟩ := by decide
theorem test_movex_not_wait : (after (start [0x3F])).map (·.out) = some ⟨true, .moveX, BitVec.ofInt 32 (-1)⟩ := by decide
theorem test_movey : (after (start [0x60])).map (·.out) = some ⟨true, .moveY, BitVec.ofInt 32 (-32)⟩ := by decide
theorem test_wait_unsigned : (after (start [0xA0])).map (·.out) = some ⟨true, .wait, 32⟩ := by decide
theorem test_ext_movex_none : (after (start [0xC0])).map (·.out) = some ⟨true, .moveX, 0⟩ := by decide
theorem test_ext_movex_one :
    (after ((start []).withFetchWord 16 0x80D0)).map (·.out) = some ⟨true, .moveX, BitVec.ofInt 32 (-128)⟩ := by decide
theorem test_ext_movey_two :
    (after ((start []).withFetchWord 24 0x0080E1)).map (·.out) = some ⟨true, .moveY, BitVec.ofInt 32 (-32768)⟩ := by
  decide
theorem test_ext_wait_signed :
    (after ((start []).withFetchWord 16 0xFFD2)).map (·.out) = some ⟨true, .wait, BitVec.ofInt 32 (-1)⟩ := by decide
theorem test_ext_toggle_ignores :
    (after ((start []).withFetchWord 16 0x99D3)).map (·.out) = some ⟨true, .togglePen, 0⟩ := by decide
theorem test_ext_clear_ignores :
    (after ((start []).withFetchWord 24 0x3412E4)).map (fun t => (t.out, t.pos)) = some (⟨true, .clear, 0⟩, 3) := by
  decide
theorem test_ext_key : (after (start [0xC5])).map (·.out) = some ⟨true, .showAndWait, 0⟩ := by decide
theorem test_ext_colour :
    (after ((start []).withFetchWord 40 0x000000FFF6)).map (·.out) =
      some ⟨true, .setColour, BitVec.ofInt 32 (-16777216)⟩ := by decide
theorem test_unrecognized_seven :
    (after (start [0xC7])).map (fun t => (t.st, t.errKind, t.errOffset, t.pos)) =
      some (.faulted, .unrecognizedExtendedOpcode, 0, 1) := by decide
theorem test_unrecognized_fifteen :
    (after ((start []).withFetchWord 40 0x04030201FF)).map (fun t => (t.st, t.extOp, t.remaining, t.pos)) =
      some (.faulted, 15, 0, 5) := by decide

/-! ### The edges between instructions (95 §2.11) -/

theorem test_escape_latched : after (start [0xE6, 0xFF, 0x74]) = some midOperand := by decide
theorem test_operand_shifted : after midOperand = some lastOwed := by decide
theorem test_operand_last :
    (after lastOwed).map (fun t => (t.st, t.remaining, t.acc, t.pos, t.out)) =
      some (.fetch, 0, 0xFF74, 3, ⟨true, .setColour, BitVec.ofInt 32 (-140)⟩) := by decide
theorem test_eos_halts : (after (start [])).map (fun t => (t.st, t.pos, t.errKind)) = some (.halted, 0, .none) := by
  decide
theorem test_truncated :
    (after { midOperand with source := [0xE6] }).map (fun t => (t.st, t.errKind, t.errOffset, t.pos, t.remaining)) =
      some (.faulted, .truncatedStream, 0, 1, 2) := by decide
theorem test_delivery :
    (after offering).map (fun t => (t.delivered, t.out.valid, t.pos)) = some ([.moveX 10], false, 1) := by decide
theorem test_back_pressure :
    (after { offering with env := ⟨[⟨none, true, false⟩], Pins.eager⟩ }) = some offering := by decide
theorem test_stall : (after { midOperand with env := ⟨[⟨none, false, true⟩], Pins.eager⟩ }) = some midOperand := by decide
theorem test_reset_drops :
    (after { offering with env := ⟨[⟨some [0xC3], true, true⟩], Pins.eager⟩ }) = some (start [0xC3]) := by decide
theorem test_malformed_count_stops :
    (match step { lastOwed with byteCount := 3 } with | .fault f => some f | _ => none) =
      some Fault.byteCountOutOfRange := by decide

/-! ### Canonical encoder (95 §2.10) and reference consumer (95 §3) -/

theorem test_canonical_moves :
    canonical (.moveX 31) = [0x1F] ∧ canonical (.moveX (BitVec.ofInt 32 (-129))) = [0xE0, 0xFF, 0x7F] ∧
      canonical (.moveX 32768) = [0xF0, 0x00, 0x00, 0x80, 0x00] := by decide
theorem test_canonical_others :
    canonical (.wait (BitVec.ofInt 32 (-1))) = [0xD2, 0xFF] ∧ canonical (.setColour 0) = [0xC6] ∧
      Pseudo.pen.expand = [0xC3] := by decide
theorem test_consumer_line :
    applyInstruction { penDown := true, current := ⟨5, 0⟩, last := ⟨0, 0⟩ } (.moveY 3) =
      ({ penDown := true, current := ⟨5, 3⟩, last := ⟨5, 3⟩ }, [.drawLine 0 0 5 3]) := by decide
theorem test_consumer_pause :
    applyInstruction PlotterState.initial (.wait 63) = (PlotterState.initial, [.pause 630]) := by decide

/-! ### Witnesses: for each statement with hypotheses, values that meet them, clause by clause -/

theorem start_inv (source : List Byte) : (start source).Inv := by constructor <;> simp [start, State.load, State.reset]
theorem midOperand_inv : midOperand.Inv := by constructor <;> decide
theorem lastOwed_inv : lastOwed.Inv := by constructor <;> decide
theorem lastOwed_framed : lastOwed.Framed := fun _ => ⟨0xE6, by decide, by decide, by decide, by decide, by decide⟩
theorem offering_inv : offering.Inv := by constructor <;> decide
theorem lastOwed_takesEvent : lastOwed.takesEvent := ⟨rfl, rfl, rfl⟩

theorem lastOwed_decoded : lastOwed.Decoded := ⟨[], by simp, by decide, by decide⟩

theorem witness_StepKeepsInv : ∃ s t : State, s.Inv ∧ step s = .next t := ⟨lastOwed, _, lastOwed_inv, rfl⟩
theorem witness_StepKeepsFramed : ∃ s t : State, s.Inv ∧ s.Framed ∧ step s = .next t :=
  ⟨lastOwed, _, lastOwed_inv, lastOwed_framed, rfl⟩
theorem witness_StepKeepsDecoded : ∃ s t : State, s.Inv ∧ s.Framed ∧ s.Decoded ∧ step s = .next t :=
  ⟨lastOwed, _, lastOwed_inv, lastOwed_framed, lastOwed_decoded, rfl⟩
theorem witness_StepAlwaysNext : ∃ s : State, s.Inv := ⟨midOperand, midOperand_inv⟩
theorem witness_ResetFromEveryState :
    (∃ (s : State) (stream : List Byte), s.env.now.rst = some stream) ∧
    (∃ s t : State, (s.st = .halted ∨ s.st = .faulted) ∧ step s = .next t ∧ t.st ≠ s.st) :=
  ⟨⟨{ midOperand with env := ⟨[], ⟨some [], true, true⟩⟩ }, [], rfl⟩,
   ⟨{ start [] with st := .faulted, env := ⟨[], ⟨some [], true, true⟩⟩ }, _, .inr rfl, rfl, by decide⟩⟩
theorem witness_TerminalAbsorbing :
    (∃ s : State, s.st = .halted ∧ s.env.now.rst = none ∧ s.Inv) ∧
      (∃ s : State, s.st = .faulted ∧ s.env.now.rst = none ∧ s.Inv) ∧
      ∃ s : State, s.st = .faulted ∧ s.out.valid = true ∧ s.env.now.rst = none :=
  ⟨⟨{ start [] with st := .halted }, rfl, rfl, by constructor <;> decide⟩,
   ⟨{ start [] with st := .faulted, errKind := .truncatedStream }, rfl, rfl, by constructor <;> decide⟩,
   ⟨{ offering with st := .faulted }, rfl, rfl, rfl⟩⟩
theorem witness_NextPowerOfTwoLeast : ∃ n j : Nat, 1 ≤ n ∧ n ≤ 2 ^ j := ⟨1, 0, by decide, by decide⟩
theorem witness_BigEndianSum : ∃ ds : List Byte, ds.length ≤ 4 ∧ ds.length = 4 := ⟨[1, 2, 3, 4], by decide, rfl⟩
theorem witness_ToSigned_unsigned : ∃ L u : Nat, 1 ≤ L ∧ u < 2 ^ L ∧ L = 1 := ⟨1, 1, by decide, by decide, rfl⟩
theorem witness_ToSigned_signed : ∃ (L : Nat) (v : Int), 1 ≤ L ∧ -(2 : Int) ^ (L - 1) ≤ v ∧ v ≤ 2 ^ (L - 1) - 1 :=
  ⟨8, -128, by decide, by decide, by decide⟩
theorem witness_OperandValueExact :
    (∃ raw : Word, raw.toNat < 2 ^ 8 ∧ raw = 0xFF) ∧ (∃ raw : Word, raw.toNat < 2 ^ 16 ∧ raw = 0xFFFF) ∧
      operandFits 0 0 = true ∧ operandFits 3 0xFFFFFFFF = true :=
  ⟨⟨_, by decide, rfl⟩, ⟨_, by decide, rfl⟩, by decide, by decide⟩
theorem witness_DecodeEncode :
    (Instr.extMovex 3 0x80000000).wellFormed = true ∧ (Instr.unrecognizedExt8 7 0 0).wellFormed = true := by decide
theorem witness_EncodeDecode : ∃ bs rest i, decode bs = .ok (i, rest) := ⟨[0xE4, 0x12, 0x34, 5], [5], _, rfl⟩
theorem witness_DecodeTotal :
    (∃ (b : Byte) (rest : List Byte), instrLength b ≤ rest.length + 1 ∧ rest.length = 4) ∧
      ∃ (b : Byte) (rest : List Byte), rest.length + 1 < instrLength b ∧ rest.length = 3 :=
  ⟨⟨0xF0, [1, 2, 3, 4], by decide, rfl⟩, ⟨0xF0, [1, 2, 3], by decide, rfl⟩⟩
theorem witness_UnrecognizedExactly :
    (∃ b bs rest i, decode (b :: bs) = .ok (i, rest) ∧ instructionOf i = none) ∧
      ∃ b bs rest i, decode (b :: bs) = .ok (i, rest) ∧ instructionOf i ≠ none :=
  ⟨⟨0xC7, [], [], _, rfl, rfl⟩, ⟨0xC6, [], [], _, rfl, by decide⟩⟩
theorem witness_CanonicalShortest :
    ∃ (v : Instruction) (i : Instr), i.wellFormed = true ∧ instructionOf i = some v :=
  ⟨.moveX 5, .extMovex 1 5, by decide, by decide⟩
/-- The hypothesis of the five statements about extended forms with an operand, at every selector. -/
theorem witness_ExtEffects :
    operandFits 0 0 = true ∧ operandFits 1 0xFF = true ∧ operandFits 2 0xFFFF = true ∧
      operandFits 3 0xFFFFFFFF = true := by decide
theorem witness_BaseFrame : ∃ i s t, extendedFields i = none ∧ exec i s = .next t := ⟨.wait 63, start [], _, rfl, rfl⟩
theorem witness_ExtendedFrame :
    (∃ i x sel raw s t, extendedFields i = some (x, sel, raw) ∧ exec i s = .next t ∧ (instructionOf i).isSome = true ∧
      sel ≠ 0) ∧
    ∃ i x sel raw s t, extendedFields i = some (x, sel, raw) ∧ exec i s = .next t ∧ instructionOf i = none :=
  ⟨⟨.extClear 2 0x1234, _, _, _, lastOwed, _, rfl, rfl, rfl, by decide⟩,
   ⟨.unrecognizedExt8 7 0 0, _, _, _, start [0xCF], _, rfl, rfl, rfl⟩⟩
theorem witness_StepRunsCompleted :
    (∃ (s : State) (b : Byte) (i : Instr), s.takesEvent ∧ s.st = .fetch ∧ s.source[s.pos]? = some b ∧ decode [b] = .ok (i, [])) ∧
    ∃ (s : State) (d : Byte) (sel : BitVec 2), s.takesEvent ∧ s.st = .operand ∧ s.remaining = 1 ∧ sel ≠ 0 ∧
      s.byteCount = operandCount sel ∧ s.source[s.pos]? = some d :=
  ⟨⟨start [0xC3], 0xC3, _, ⟨rfl, rfl, rfl⟩, rfl, rfl, rfl⟩,
   ⟨lastOwed, 0x74, 2, lastOwed_takesEvent, rfl, rfl, by decide, by decide, rfl⟩⟩
theorem witness_StepRunsDecoded :
    ∃ s i rest, State.Inv s ∧ s.Framed ∧ s.takesEvent ∧ decode (s.source.drop s.boundary) = .ok (i, rest) ∧
      s.boundary + (encode i).length = s.pos + 1 :=
  ⟨lastOwed, _, _, lastOwed_inv, lastOwed_framed, lastOwed_takesEvent, rfl, rfl⟩
theorem witness_EscapeLatched :
    ∃ (s : State) (b : Byte), s.takesEvent ∧ s.st = .fetch ∧ s.source[s.pos]? = some b ∧ opcode b = 3 ∧
      lengthSelector b ≠ 0 :=
  ⟨start [0xFF], 0xFF, ⟨rfl, rfl, rfl⟩, rfl, rfl, by decide, by decide⟩
theorem witness_OperandShifted :
    ∃ (s : State) (d : Byte), s.takesEvent ∧ s.st = .operand ∧ s.source[s.pos]? = some d ∧ s.remaining ≠ 1 :=
  ⟨midOperand, 0xFF, ⟨rfl, rfl, rfl⟩, rfl, rfl, by decide⟩
theorem witness_EndOfStreamHalts :
    ∃ s : State, s.takesEvent ∧ s.st = .fetch ∧ s.source[s.pos]? = none ∧ s.Inv :=
  ⟨start [], ⟨rfl, rfl, rfl⟩, rfl, rfl, start_inv []⟩
theorem witness_TruncatedStreamFaults :
    ∃ s : State, s.takesEvent ∧ s.st = .operand ∧ s.source[s.pos]? = none ∧ s.Inv :=
  ⟨{ midOperand with source := [0xE6] }, ⟨rfl, rfl, rfl⟩, rfl, rfl, by constructor <;> decide⟩
theorem witness_DeliveryAndBackPressure :
    (∃ s : State, s.env.now.rst = none ∧ s.out.valid = true ∧ s.env.now.outReady = true) ∧
      ∃ s : State, s.env.now.rst = none ∧ s.out.valid = true ∧ s.env.now.outReady = false :=
  ⟨⟨offering, rfl, rfl, rfl⟩, ⟨{ offering with env := ⟨[], ⟨none, true, false⟩⟩ }, rfl, rfl, rfl⟩⟩
theorem witness_StallChangesNothing :
    ∃ s : State, s.env.now.rst = none ∧ s.out.valid = false ∧ s.env.now.inValid = false :=
  ⟨{ midOperand with env := ⟨[], ⟨none, false, true⟩⟩ }, rfl, rfl, rfl⟩
theorem witness_InputOnlyWhenReady : ∃ s t : State, s.env.now.rst = none ∧ ¬ s.takesEvent ∧ step s = .next t :=
  ⟨offering, _, rfl, fun h => absurd h.2.2 (by decide), rfl⟩
theorem witness_ForwardOnly : ∃ s t : State, s.Inv ∧ s.env.now.rst = none ∧ step s = .next t :=
  ⟨lastOwed, _, lastOwed_inv, rfl, rfl⟩
theorem witness_NoLookahead :
    ∃ (s t : State) (other : List Byte), s.env.now.rst = none ∧ other[s.pos]? = s.source[s.pos]? ∧ other ≠ s.source ∧
      step s = .next t :=
  ⟨midOperand, _, [0xE6, 0xFF], rfl, rfl, by decide, rfl⟩
theorem witness_PortsShowState : ∃ s : State, s.Inv := ⟨offering, offering_inv⟩
theorem witness_WholeInstruction :
    ∃ (i : Instr) (s : State) (rest : List Byte), i.wellFormed = true ∧ s.st = .fetch ∧ s.out.valid = false ∧
      s.env = Env.eager ∧ s.source.drop s.pos = encode i ++ rest :=
  ⟨.extSetColour 3 0xFF000000, start [0xF6, 0xFF, 0, 0, 0, 5], [5], by decide, rfl, rfl, rfl, by decide⟩
theorem witness_TruncatedInstruction :
    ∃ (b : Byte) (ds : List Byte) (s : State), opcode b = 3 ∧ ds.length < operandBytes (lengthSelector b) ∧
      s.st = .fetch ∧ s.out.valid = false ∧ s.env = Env.eager ∧ s.source.drop s.pos = b :: ds :=
  ⟨0xFF, [0x11, 0x11, 0x11], start [0xFF, 0x11, 0x11, 0x11], by decide, by decide, rfl, rfl, rfl, rfl⟩
theorem witness_StreamRoundTrip :
    ∃ is : List Instr, (∀ i ∈ is, Legal i) ∧ is ≠ [] :=
  ⟨[.extTogglePen 1 0x99, .movex 10], by intro i h; fin_cases h <;> exact ⟨by decide, rfl⟩, by simp⟩
theorem witness_RunIsDecodeStream :
    ∃ (source : List Byte) (env : Env) (k : Nat) (t : State), env.noReset ∧
      core.run k (State.load source env) = .next t ∧ t.ended :=
  ⟨[0xC3], ⟨[⟨none, false, false⟩], Pins.eager⟩, 4, _, ⟨by simp, rfl⟩, rfl, ⟨.inl rfl, rfl⟩⟩
theorem witness_EveryStreamEnds :
    (∃ env : Env, env.noReset ∧ env.rest.inValid = true ∧ env.rest.outReady = true ∧ env ≠ Env.eager) ∧
      eventsTaken 3 (start [0x05]) = 2 :=
  ⟨⟨⟨[⟨none, false, false⟩], Pins.eager⟩, ⟨by simp, rfl⟩, rfl, rfl, by decide⟩, by decide⟩
theorem witness_StreamEndsAsFramed :
    decodeStream [0x05] = some ([.moveX 5], .halted, 1) ∧
      decodeStream [0x41, 0xE6, 0x12] = some ([.moveY 1], .faulted .truncatedStream 1, 3) ∧
      decodeStream [0xC7, 0x05] = some ([], .faulted .unrecognizedExtendedOpcode 0, 1) := by decide
theorem witness_OnlyMoveYDraws : ∃ vs : List Instruction, (∀ d, Instruction.moveY d ∉ vs) ∧ Instruction.moveX 5 ∈ vs :=
  ⟨[.togglePen, .moveX 5], by simp, by simp⟩

end Sys2Proof.Tests
end

section
/-! PROOFS. The state family: reset values, the invariants `Inv` and `Framed` under every step, edges that take no
event, and the output views. -/

namespace Sys2Proof.Machine

/-! ### When the input is ready, and what a taken event supposes -/

/-- R33, word for word. -/
theorem State.inReady_iff (s : State) :
    s.inReady = true ↔ (s.st = .fetch ∨ s.st = .operand) ∧ s.out.valid = false := by
  simp [State.inReady]

theorem State.takesEvent.out_empty {s : State} (h : s.takesEvent) : s.out.valid = false :=
  (s.inReady_iff.1 h.2.2).2

theorem pos_lt_of_byte {s : State} {b : Byte} (h : s.source[s.pos]? = some b) : s.pos < s.source.length :=
  (List.getElem?_eq_some_iff.1 h).1

/-! ### The count of a selector, and the size of the accumulator -/

theorem operandCount_cases {sel : BitVec 2} (h : sel ≠ 0#2) :
    operandCount sel = 1#3 ∨ operandCount sel = 2#3 ∨ operandCount sel = 4#3 := by
  revert sel; decide

/-- One accumulation step makes room for exactly one byte more (R75). -/
theorem shiftIn_toNat_lt {acc : Word} {k : Nat} (d : Byte) (h : acc.toNat < 2 ^ (8 * k)) :
    (shiftIn acc d).toNat < 2 ^ (8 * (k + 1)) := by
  have hpow : 2 ^ (8 * (k + 1)) = 2 ^ (8 * k) * 2 ^ 8 := by rw [← Nat.pow_add]; congr 1
  have hacc : (acc <<< 8).toNat < 2 ^ (8 * (k + 1)) := by
    rw [BitVec.toNat_shiftLeft, Nat.shiftLeft_eq]
    exact (Nat.mod_le _ _).trans_lt (by omega)
  have hd : (d.setWidth 32).toNat < 2 ^ (8 * (k + 1)) := by
    have hlt : d.toNat < 2 ^ 8 := d.isLt
    have hle : 2 ^ 8 ≤ 2 ^ (8 * (k + 1)) := Nat.pow_le_pow_right (by decide) (by omega)
    rw [BitVec.toNat_setWidth]
    exact (Nat.mod_le _ _).trans_lt (hlt.trans_le hle)
  rw [shiftIn, BitVec.toNat_or]
  exact Nat.or_lt_two_pow hacc hd

/-! ### Between instructions -/

/-- Every byte of an instruction has been read and nothing has come of it yet: no operand byte is owed, no error is
recorded and nothing is on offer. `st` is free, since the last byte is read in FETCH or in OPERAND. -/
structure State.BytesRead (s : State) : Prop where
  none_remaining : s.remaining = 0#3
  no_error : s.errKind = .none
  start_le_pos : s.instStart ≤ s.pos
  count_range : s.byteCount = 0#3 ∨ s.byteCount = 1#3 ∨ s.byteCount = 2#3 ∨ s.byteCount = 4#3
  pos_le : s.pos ≤ s.source.length
  out_empty : s.out.valid = false

theorem State.Inv.no_error {s : State} (h : s.Inv) (hst : s.st ≠ .faulted) : s.errKind = .none :=
  Classical.not_not.1 fun he => hst (h.fault_iff.2 he)

/-- In FETCH with nothing on offer, the bytes of every earlier instruction have been read. -/
theorem State.Inv.bytesRead {s : State} (h : s.Inv) (hst : s.st = .fetch) (hv : s.out.valid = false) :
    s.BytesRead where
  none_remaining := h.fetch_remaining hst
  no_error := h.no_error (by simp [hst])
  start_le_pos := h.start_le_pos
  count_range := h.count_range
  pos_le := h.pos_le
  out_empty := hv

/-- A base byte is the whole of its instruction. -/
theorem State.BytesRead.takeOpcode {s : State} (h : s.BytesRead) (hp : s.pos < s.source.length) :
    s.takeOpcode.BytesRead where
  none_remaining := h.none_remaining
  no_error := h.no_error
  start_le_pos := Nat.le_succ _
  count_range := h.count_range
  pos_le := hp
  out_empty := h.out_empty

/-- So is an escape byte with selector 0 (R92). -/
theorem State.BytesRead.latchEscape {s : State} (h : s.BytesRead) (hp : s.pos < s.source.length) (x : BitVec 4) :
    (s.latchEscape x 0#2).BytesRead where
  none_remaining := (operandCount_eq_zero_iff _).2 rfl
  no_error := h.no_error
  start_le_pos := Nat.le_succ _
  count_range := .inl ((operandCount_eq_zero_iff _).2 rfl)
  pos_le := hp
  out_empty := h.out_empty

/-- The last operand byte ends an extended form (R89). -/
theorem State.Inv.takeLastOperand {s : State} (h : s.Inv) (hst : s.st = .operand) (hv : s.out.valid = false)
    (hr : s.remaining = 1#3) (hp : s.pos < s.source.length) (raw : Word) : (s.takeOperand raw).BytesRead where
  none_remaining := by simp [hr]
  no_error := h.no_error (by simp [hst])
  start_le_pos := h.start_le_pos.trans (Nat.le_succ _)
  count_range := h.count_range
  pos_le := hp
  out_empty := hv

/-! ### `Inv` under each operation -/

/-- A run starts inside the invariants, whatever is presented (R29, R30). -/
theorem State.load_inv (source : List Byte) (env : Env) : (State.load source env).Inv := by
  constructor <;> simp [State.load, State.reset]

/-- `Inv` does not speak of the schedule. -/
theorem State.Inv.tick {s : State} (h : s.Inv) : s.tick.Inv := { h with }

/-- Of `out`, `Inv` speaks only while an Instruction is on offer. -/
theorem State.Inv.deliver {s : State} (h : s.Inv) : s.deliver.Inv :=
  { h with out_fetch := by simp }

theorem State.BytesRead.emit_inv {s : State} (h : s.BytesRead) (v : Instruction) : (s.emit v).Inv := by
  constructor <;> simp [h.none_remaining, h.no_error, h.start_le_pos, h.pos_le, h.count_range]

/-- R112: the offset reported is that of the instruction just read. -/
theorem State.BytesRead.fault_inv {s : State} (h : s.BytesRead) :
    (s.raiseFault .unrecognizedExtendedOpcode s.instStart).Inv := by
  constructor <;> simp [h.none_remaining, h.start_le_pos, h.pos_le, h.out_empty, h.count_range]

/-- R86: the block halts where no byte is left. -/
theorem State.BytesRead.halt_inv {s : State} (h : s.BytesRead) (hp : s.source[s.pos]? = none) : s.halt.Inv := by
  have hend : s.pos = s.source.length := le_antisymm h.pos_le (List.getElem?_eq_none_iff.1 hp)
  have hstart := hend ▸ h.start_le_pos
  constructor <;> simp [h.none_remaining, h.no_error, hend, hstart, h.out_empty, h.count_range]

/-- R90: the stream ended inside an operand. -/
theorem State.Inv.truncate {s : State} (h : s.Inv) (hv : s.out.valid = false) (hp : s.source[s.pos]? = none) :
    (s.raiseFault .truncatedStream s.instStart).Inv := by
  have hend : s.pos = s.source.length := le_antisymm h.pos_le (List.getElem?_eq_none_iff.1 hp)
  have hstart := hend ▸ h.start_le_pos
  constructor <;> simp [hend, hstart, hv, h.count_range, h.remaining_le]

/-- R87: an escape byte owes all of its operand, and the accumulator is still empty. -/
theorem State.BytesRead.awaitOperand_inv {s : State} (h : s.BytesRead) (hp : s.pos < s.source.length) (x : BitVec 4)
    {sel : BitVec 2} (hsel : sel ≠ 0#2) : (s.awaitOperand x sel).Inv := by
  have hcount := operandCount_cases hsel
  have hpos : 1 ≤ (operandCount sel).toNat := by rcases hcount with e | e | e <;> simp [e]
  constructor <;> simp [h.no_error, h.out_empty, hcount, hpos, Nat.succ_le_of_lt hp]

/-- R89: an operand byte that is not the last; one byte fewer is owed and one more is in the accumulator. -/
theorem State.Inv.takeOperand {s : State} (h : s.Inv) (hst : s.st = .operand) (hv : s.out.valid = false)
    (hr : s.remaining ≠ 1#3) (hp : s.pos < s.source.length) (d : Byte) :
    (s.takeOperand (shiftIn s.acc d)).Inv := by
  obtain ⟨howed, hle⟩ := h.operand_remaining hst
  have htwo : 2 ≤ s.remaining.toNat := by bv_omega
  have hsub : (s.takeOperand (shiftIn s.acc d)).remaining.toNat = s.remaining.toNat - 1 := by
    rw [State.takeOperand_remaining]; bv_omega
  have hread : s.byteCount.toNat - s.remaining.toNat + 1 = s.byteCount.toNat - (s.remaining.toNat - 1) := by omega
  have hacc := shiftIn_toNat_lt d (h.operand_acc hst)
  have hpos := h.operand_pos hst
  have herr := h.no_error (by simp [hst])
  exact {
    fetch_remaining := by simp [hst]
    operand_count := h.operand_count
    operand_remaining := fun _ => by rw [hsub, State.takeOperand_byteCount]; omega
    operand_acc := fun _ => by rw [hsub, State.takeOperand_byteCount, ← hread]; exact hacc
    fault_iff := by simp [hst, herr]
    start_le_pos := h.start_le_pos.trans (Nat.le_succ _)
    count_range := h.count_range
    remaining_le := by rw [hsub, State.takeOperand_byteCount]; omega
    operand_pos := fun _ => by
      rw [hsub, State.takeOperand_pos, State.takeOperand_instStart, State.takeOperand_byteCount]; omega
    pos_le := hp
    out_fetch := by simp [hv]
    halted_pos := by simp [hst]
    truncated_pos := by simp [herr]
    fault_offset := by simp [hst] }

/-! ### `Inv` under a meaning and under a step -/

theorem lastRead_of_base {i : Instr} (h : extendedFields i = none) (s : State) : lastRead i s = s.takeOpcode := by
  simp [lastRead, h]

@[simp] theorem lastRead_extInstr (x : BitVec 4) (sel : BitVec 2) (raw : Word) (s : State) :
    lastRead (extInstr x sel raw) s = s.takeLast x sel raw := by
  simp [lastRead]

theorem exec_inv {i : Instr} {s t : State} (h : exec i s = .next t) (hr : (lastRead i s).BytesRead) : t.Inv := by
  rw [exec_eq] at h
  obtain rfl := Host.Outcome.next.inj h
  cases instructionOf i with
  | some v => exact hr.emit_inv v
  | none => exact hr.fault_inv

/-- What an instruction whose only byte is taken in FETCH leaves read. -/
theorem lastRead_bytesRead_of_fetch {s : State} {b : Byte} {i : Instr} (h : s.BytesRead) (hp : s.pos < s.source.length)
    (hi : baseInstr b = some i ∨ opcode b = 3#2 ∧ lengthSelector b = 0#2 ∧ i = extInstr (extOpOf b) 0#2 0#32) :
    (lastRead i s).BytesRead := by
  rcases hi with hb | ⟨_, _, rfl⟩
  · rw [lastRead_of_base (baseInstr_eq_some hb).1]; exact h.takeOpcode hp
  · rw [lastRead_extInstr]; exact h.latchEscape hp _

/-- What an extended form whose last operand byte is taken in OPERAND leaves read. -/
theorem lastRead_bytesRead_of_operand {s : State} (h : s.Inv) (hst : s.st = .operand) (hv : s.out.valid = false)
    (hr : s.remaining = 1#3) (hp : s.pos < s.source.length) (x : BitVec 4) {sel : BitVec 2} (hsel : sel ≠ 0#2)
    (raw : Word) : (lastRead (extInstr x sel raw) s).BytesRead := by
  rw [lastRead_extInstr, State.takeLast, if_neg hsel]
  exact h.takeLastOperand hst hv hr hp raw

/-- Settles O3: one lemma for each thing `step_cases` says a step can do, the meanings through `BytesRead`. -/
theorem stepKeepsInv : Obligations.StepKeepsInv := by
  intro s t h hstep
  rcases step_cases hstep with ⟨stream, _, rfl⟩ | ⟨_, _, _, rfl⟩ | ⟨_, _, rfl⟩ | ⟨ht, hst, hp, rfl⟩ |
    ⟨ht, _, hp, rfl⟩ | ⟨b, ht, hst, hp, _, hsel, rfl⟩ | ⟨d, ht, hst, hp, hr, rfl⟩ |
    ⟨b, i, ht, hst, hp, _, _, hi, hx⟩ | ⟨d, sel, ht, hst, hp, hr, _, hsel, hx⟩
  · exact State.load_inv stream s.env.later
  · exact h.tick.deliver
  · exact h.tick
  · exact (h.tick.bytesRead hst ht.out_empty).halt_inv hp
  · exact h.tick.truncate ht.out_empty hp
  · exact (h.tick.bytesRead hst ht.out_empty).awaitOperand_inv (pos_lt_of_byte hp) _ hsel
  · exact h.tick.takeOperand hst ht.out_empty hr (pos_lt_of_byte hp) d
  · exact exec_inv hx (lastRead_bytesRead_of_fetch (h.tick.bytesRead hst ht.out_empty) (pos_lt_of_byte hp) hi)
  · exact exec_inv hx (lastRead_bytesRead_of_operand h.tick hst ht.out_empty hr (pos_lt_of_byte hp) _ hsel _)

/-! ### `Framed` -/

/-- Outside OPERAND, `Framed` asks nothing. -/
theorem State.framed_of_st_ne {s : State} (h : s.st ≠ .operand) : s.Framed := fun hst => absurd hst h

theorem State.load_framed (source : List Byte) (env : Env) : (State.load source env).Framed :=
  State.framed_of_st_ne (by simp [State.load, State.reset])

/-- A meaning ends in FETCH or in FAULTED. -/
theorem exec_st {i : Instr} {s t : State} (h : exec i s = .next t) : t.st = .fetch ∨ t.st = .faulted := by
  rw [exec_eq] at h
  obtain rfl := Host.Outcome.next.inj h
  cases instructionOf i with
  | some v => exact .inl rfl
  | none => exact .inr rfl

theorem exec_framed {i : Instr} {s t : State} (h : exec i s = .next t) : t.Framed := by
  rcases exec_st h with e | e <;> exact State.framed_of_st_ne (by simp [e])

/-- R12, R13, R15: a latched escape byte is at `inst_start`, and no operand byte has been read. -/
theorem State.awaitOperand_framed {s : State} {b : Byte} (hp : s.source[s.pos]? = some b) (ho : opcode b = 3#2) :
    (s.awaitOperand (extOpOf b) (lengthSelector b)).Framed := fun _ =>
  ⟨b, hp, ho, rfl, rfl, by simp⟩

/-- R75: an operand byte joins those between `inst_start` and `pos`. -/
theorem State.Framed.takeOperand {s : State} {d : Byte} (hf : s.Framed) (h : s.Inv) (hst : s.st = .operand)
    (hp : s.source[s.pos]? = some d) : (s.takeOperand (shiftIn s.acc d)).Framed := by
  intro _
  obtain ⟨b, hb, ho, hx, hc, hacc⟩ := hf hst
  have hstart : s.instStart + 1 ≤ s.pos := by
    have hpos := h.operand_pos hst
    have hle := h.remaining_le
    omega
  have hlen : s.instStart + 1 ≤ (s.source.take s.pos).length := by
    rw [List.length_take_of_le h.pos_le]; exact hstart
  have hbytes : (s.source.take (s.pos + 1)).drop (s.instStart + 1) =
      (s.source.take s.pos).drop (s.instStart + 1) ++ [d] := by
    rw [List.take_add_one, hp, Option.toList_some, List.drop_append_of_le_length hlen]
  refine ⟨b, hb, ho, hx, hc, ?_⟩
  rw [State.takeOperand_source, State.takeOperand_pos, State.takeOperand_instStart, State.takeOperand_acc, hbytes,
    readBigEndian_append_one, ← hacc]

/-- Settles O4: only an escape byte enters OPERAND, and only a further operand byte stays there and reads. -/
theorem stepKeepsFramed : Obligations.StepKeepsFramed := by
  intro s t h hf hstep
  rcases step_cases hstep with ⟨stream, _, rfl⟩ | ⟨_, _, _, rfl⟩ | ⟨_, _, rfl⟩ | ⟨_, _, _, rfl⟩ | ⟨_, _, _, rfl⟩ |
    ⟨b, _, _, hp, ho, _, rfl⟩ | ⟨d, _, hst, hp, _, rfl⟩ | ⟨_, _, _, _, _, _, _, _, hx⟩ | ⟨_, _, _, _, _, _, _, _, hx⟩
  · exact State.load_framed stream s.env.later
  · exact hf
  · exact hf
  · exact State.framed_of_st_ne (by simp)
  · exact State.framed_of_st_ne (by simp)
  · exact State.awaitOperand_framed (s := s.tick) hp ho
  · exact State.Framed.takeOperand (s := s.tick) hf h.tick hst hp
  · exact exec_framed hx
  · exact exec_framed hx

/-- Settles O2: `Framed` is about OPERAND alone, and before the first byte nothing is read and nothing emitted. -/
theorem loadMeetsInvariants : Obligations.LoadMeetsInvariants := fun source env =>
  ⟨State.load_inv source env, State.load_framed source env, [], by simp, rfl, rfl⟩

/-- Settles O1. -/
theorem resetValues : Obligations.ResetValues := ⟨rfl, rfl, rfl, rfl, rfl, rfl, rfl, rfl, rfl, rfl, rfl, rfl⟩

/-! ### Edges that take no event -/

/-- Settles O41: `step_cases` leaves a delivery, which moves the Instruction on offer, and an edge that only passes. -/
theorem inputOnlyWhenReady : Obligations.InputOnlyWhenReady := by
  refine ⟨State.inReady_iff, fun s t hr hn hstep => ?_⟩
  have kept : sameRegisters s s.tick ∧ s.tick.emitted = s.emitted := by simp [sameRegisters]
  rcases step_cases hstep with ⟨_, hs, _⟩ | ⟨_, hv, _, rfl⟩ | ⟨_, _, rfl⟩ | ⟨ht, _⟩ | ⟨ht, _⟩ | ⟨_, ht, _⟩ |
    ⟨_, ht, _⟩ | ⟨_, _, ht, _⟩ | ⟨_, _, ht, _⟩
  · simp [hr] at hs
  · exact ⟨kept.1, State.deliver_emitted (s := s.tick) hv⟩
  · exact kept
  all_goals exact absurd ht hn

/-- An Instruction on offer decides the edge, by the consumer's pin alone (R32, R33). -/
theorem edge_of_offer {s : State} (hr : s.env.now.rst = none) (hv : s.out.valid = true) :
    s.edge = .moved (if s.env.now.outReady then s.tick.deliver else s.tick) := by
  simp [State.edge, hr, hv]

/-- Settles O39. -/
theorem deliveryAndBackPressure : Obligations.DeliveryAndBackPressure := by
  intro s hr hv
  have hstep := step_of_moved (edge_of_offer hr hv)
  constructor
  · intro ho; rw [hstep, ho]; rfl
  · intro ho; rw [hstep, ho]; rfl

/-- With nothing on offer and no event presented, only the schedule goes on (R100). -/
theorem edge_of_stall {s : State} (hr : s.env.now.rst = none) (hv : s.out.valid = false)
    (hi : s.env.now.inValid = false) : s.edge = .moved s.tick := by
  simp [State.edge, hr, hv, hi]

/-- Settles O40. -/
theorem stallChangesNothing : Obligations.StallChangesNothing := fun _ hr hv hi =>
  step_of_moved (edge_of_stall hr hv hi)

/-! ### Output views -/

theorem ErrKind.code_ne_three (k : ErrKind) : k.code ≠ 3#2 := by cases k <;> decide

theorem OutKind.code_ne_seven (k : OutKind) : k.code ≠ 7#3 := by cases k <;> decide

theorem ErrKind.code_eq_zero_iff (k : ErrKind) : k.code = 0#2 ↔ k = .none := by cases k <;> decide

theorem State.isFaulted_iff (s : State) : s.isFaulted = true ↔ s.st = .faulted := beq_iff_eq

/-- Settles O44: each port is a field or a comparison, each number is by cases on what it names, and the last clause is
R30's equivalence of FAULTED and a recorded error. -/
theorem portsShowState : Obligations.PortsShowState := by
  intro s
  refine ⟨beq_iff_eq, s.isFaulted_iff, beq_iff_eq, s.inReady_iff, rfl, rfl, rfl, rfl, ?_, ?_, ?_,
    s.errKind.code_ne_three, s.out.kind.code_ne_seven, fun h => ?_⟩
  · cases s.st <;> rfl
  · show s.errKind.code = _
    cases s.errKind <;> rfl
  · show s.out.kind.code = _
    cases s.out.kind <;> rfl
  · calc s.errKind.code ≠ 0#2 ↔ s.errKind ≠ .none := not_congr s.errKind.code_eq_zero_iff
      _ ↔ s.st = .faulted := h.fault_iff.symm
      _ ↔ s.isFaulted = true := s.isFaulted_iff.symm

end Sys2Proof.Machine
end

section
/-! PROOFS. The byte-source family: the big-endian reader and its inverse, `Decoded` under every step, and how a step
uses the stream: forward only, and no further than the byte at `pos`. -/

namespace Sys2Proof.Machine

/-! ### The big-endian reader -/

/-- Below 24 bits the accumulation step of R75 loses nothing. -/
theorem shiftIn_toNat {acc : Word} (d : Byte) (h : acc.toNat < 2 ^ 24) :
    (shiftIn acc d).toNat = acc.toNat * 2 ^ 8 + d.toNat := by
  have hroom : acc.toNat * 2 ^ 8 < 2 ^ 32 := by omega
  rw [shiftIn, BitVec.toNat_or, BitVec.toNat_shiftLeft, BitVec.toNat_setWidth_of_le (by decide), Nat.shiftLeft_eq,
    Nat.mod_eq_of_lt hroom, ← Nat.shiftLeft_eq, Nat.shiftLeft_add_eq_or_of_lt d.isLt]

/-- Each byte shifted in adds 8 bits to the bound on the accumulator. -/
theorem foldl_shiftIn_toNat_lt (ds : List Byte) {acc : Word} {k : Nat} (h : acc.toNat < 2 ^ (8 * k)) :
    (ds.foldl shiftIn acc).toNat < 2 ^ (8 * (k + ds.length)) := by
  induction ds generalizing acc k with
  | nil => exact h
  | cons d ds ih =>
    rw [List.foldl_cons, List.length_cons, Nat.add_comm ds.length, ← Nat.add_assoc]
    exact ih (shiftIn_toNat_lt d h)

/-- R74: no bound on the number of bytes is needed here. -/
theorem readBigEndian_toNat_lt (ds : List Byte) : (readBigEndian ds).toNat < 2 ^ (8 * ds.length) := by
  simpa [readBigEndian] using foldl_shiftIn_toNat_lt ds (acc := 0#32) (k := 0) (by decide)

/-- The accumulator moves up past the bytes that follow, which add their own sum, as long as four bytes hold it all. -/
theorem foldl_shiftIn_toNat (ds : List Byte) {acc : Word} {k : Nat} (h : acc.toNat < 2 ^ (8 * k))
    (hk : k + ds.length ≤ 4) :
    (ds.foldl shiftIn acc).toNat =
      acc.toNat * 2 ^ (8 * ds.length) + ∑ i : Fin ds.length, ds[i].toNat * 2 ^ (8 * (ds.length - 1 - i)) := by
  induction ds generalizing acc k with
  | nil => simp
  | cons d ds ih =>
    rw [List.length_cons] at hk
    have h24 : acc.toNat < 2 ^ 24 := h.trans_le (Nat.pow_le_pow_right (by decide) (by omega))
    have hpow : 2 ^ (8 * (ds.length + 1)) = 2 ^ 8 * 2 ^ (8 * ds.length) := by rw [← Nat.pow_add]; congr 1; omega
    have hsum : ∑ i : Fin (d :: ds).length, (d :: ds)[i].toNat * 2 ^ (8 * ((d :: ds).length - 1 - i)) =
        d.toNat * 2 ^ (8 * ds.length) + ∑ i : Fin ds.length, ds[i].toNat * 2 ^ (8 * (ds.length - 1 - i)) := by
      have htail (i : Fin ds.length) : ds.length - (i + 1) = ds.length - 1 - i := by omega
      simp [Fin.sum_univ_succ, htail]
    rw [List.foldl_cons, ih (shiftIn_toNat_lt d h) (by omega), shiftIn_toNat d h24, hsum, List.length_cons, hpow]
    ring

/-- Settles O13: the sum is the accumulation from 0, one byte after another. -/
theorem bigEndianSum : Obligations.BigEndianSum := fun ds hlen =>
  ⟨by simpa [readBigEndian] using foldl_shiftIn_toNat ds (acc := 0#32) (k := 0) (by decide) (by omega),
    readBigEndian_toNat_lt ds⟩

/-! ### Writing the operand back -/

/-- The low byte after an accumulation step is the byte shifted in. -/
theorem shiftIn_setWidth (acc : Word) (d : Byte) : (shiftIn acc d).setWidth 8 = d := by
  ext i hi
  simp [shiftIn]

/-- Every byte of the accumulator moves up by one place. -/
theorem shiftIn_ushiftRight_setWidth (acc : Word) (d : Byte) {n : Nat} (hn : n ≤ 2) :
    (shiftIn acc d >>> (8 * (n + 1))).setWidth 8 = (acc >>> (8 * n)).setWidth 8 := by
  ext i hi
  have hword : 8 * (n + 1) + i < 32 := by omega
  have hbyte : d.getLsbD (8 * (n + 1) + i) = false := BitVec.getLsbD_of_ge _ _ (by omega)
  have hge : ¬ 8 * (n + 1) + i < 8 := by omega
  have hplace : 8 * (n + 1) + i - 8 = 8 * n + i := by omega
  simp [shiftIn, hword, hbyte, hge, hplace, BitVec.getLsbD_eq_getElem (show 8 * n + i < 32 by omega)]

theorem bigEndianBytes_shiftIn (acc : Word) (d : Byte) {n : Nat} (hn : n ≤ 3) :
    bigEndianBytes (n + 1) (shiftIn acc d) = bigEndianBytes n acc ++ [d] := by
  induction n with
  | zero => simp [bigEndianBytes, shiftIn_setWidth]
  | succ n ih =>
    rw [bigEndianBytes, ih (by omega), shiftIn_ushiftRight_setWidth acc d (by omega), bigEndianBytes, List.cons_append]

/-- R63's `BE_n` undoes `readBigEndian` on up to four bytes. -/
theorem bigEndianBytes_readBigEndian (ds : List Byte) (h : ds.length ≤ 4) :
    bigEndianBytes ds.length (readBigEndian ds) = ds := by
  induction ds using List.reverseRecOn with
  | nil => rfl
  | append_singleton ds d ih =>
    rw [List.length_append, List.length_singleton] at h ⊢
    rw [readBigEndian_append_one, bigEndianBytes_shiftIn _ _ (by omega), ih (by omega)]

/-! ### What a meaning reads and emits -/

/-- A meaning leaves the stream and reads one byte of it. -/
theorem exec_source_pos {i : Instr} {s t : State} (h : exec i s = .next t) :
    t.source = s.source ∧ t.pos = s.pos + 1 := by
  obtain ⟨hsource, _, _, _, _, _, hpos⟩ := lastRead_keeps i s
  rw [exec_eq] at h
  obtain rfl := Host.Outcome.next.inj h
  cases instructionOf i <;> exact ⟨hsource, hpos⟩

/-- Into an empty `out`, a meaning emits the Instruction it stands for, and nothing if it is unrecognized (R112). -/
theorem exec_emitted {i : Instr} {s t : State} (h : exec i s = .next t) (hv : s.out.valid = false) :
    t.emitted = s.emitted ++ (instructionOf i).toList := by
  obtain ⟨_, hdelivered, _, hout, _, _, _⟩ := lastRead_keeps i s
  have hread : (lastRead i s).emitted = s.emitted := by rw [State.emitted, hdelivered, hout]; rfl
  rw [exec_eq] at h
  obtain rfl := Host.Outcome.next.inj h
  cases instructionOf i with
  | some v => rw [← hread]; exact State.emit_emitted v (hout ▸ hv)
  | none => rw [← hread]; exact (List.append_nil _).symm

/-- An emission puts the boundary behind the byte read, a fault leaves it at the instruction refused. -/
theorem exec_boundary {i : Instr} {s t : State} (h : exec i s = .next t) :
    t.boundary = if (instructionOf i).isSome then s.pos + 1 else (lastRead i s).instStart := by
  obtain ⟨_, _, _, _, _, _, hpos⟩ := lastRead_keeps i s
  rw [exec_eq] at h
  obtain rfl := Host.Outcome.next.inj h
  cases instructionOf i with
  | some v => exact hpos
  | none => rfl

/-! ### `Decoded` under each operation -/

theorem State.boundary_of_fetch {s : State} (h : s.st = .fetch) : s.boundary = s.pos := by rw [State.boundary, h]

theorem State.boundary_of_operand {s : State} (h : s.st = .operand) : s.boundary = s.instStart := by
  rw [State.boundary, h]

theorem State.load_decoded (source : List Byte) (env : Env) : (State.load source env).Decoded :=
  (loadMeetsInvariants source env).2.2

/-- `Decoded` speaks of the stream, the boundary and what was emitted, and of nothing else. -/
theorem State.Decoded.congr {s t : State} (h : s.Decoded) (hs : t.source = s.source) (hb : t.boundary = s.boundary)
    (he : t.emitted = s.emitted) : t.Decoded := by
  rwa [State.Decoded, hs, hb, he]

/-- One legal instruction more before the boundary, and its Instruction emitted. -/
theorem State.Decoded.snoc {s t : State} {i : Instr} (h : s.Decoded) (hi : Legal i)
    (hb : t.source.take t.boundary = s.source.take s.boundary ++ encode i)
    (he : t.emitted = s.emitted ++ (instructionOf i).toList) : t.Decoded := by
  obtain ⟨is, hlegal, hbytes, hemitted⟩ := h
  refine ⟨is ++ [i], ?_, ?_, ?_⟩
  · simpa [or_imp, forall_and] using ⟨hlegal, hi⟩
  · simp [hb, hbytes]
  · rw [he, ← hemitted, List.filterMap_append]
    cases h : instructionOf i <;> simp [h]

/-- A meaning whose bytes end with the one at `pos` and begin at the boundary: if it stands for an Instruction the
boundary passes it, and otherwise the boundary stays before it. -/
theorem State.Decoded.of_exec {i : Instr} {s t : State} (h : s.Decoded) (hx : exec i s = .next t)
    (hv : s.out.valid = false) (hw : i.wellFormed = true)
    (hbytes : s.source.take (s.pos + 1) = s.source.take s.boundary ++ encode i)
    (hstart : (lastRead i s).instStart = s.boundary) : t.Decoded := by
  obtain ⟨hsource, _⟩ := exec_source_pos hx
  have hemitted := exec_emitted hx hv
  have hboundary := exec_boundary hx
  cases hi : instructionOf i with
  | some v =>
    refine h.snoc ⟨hw, by rw [hi]; rfl⟩ ?_ hemitted
    rw [hsource, hboundary, hi]
    exact hbytes
  | none =>
    refine h.congr hsource ?_ ?_
    · rw [hboundary, hi]; exact hstart
    · rw [hemitted, hi]; exact List.append_nil _

/-! ### The bytes of an instruction -/

theorem operandBytes_le_four (sel : BitVec 2) : operandBytes sel ≤ 4 := by
  rcases selector_cases sel with rfl | rfl | rfl | rfl <;> simp

/-- R53: `byte_count` tells the selectors apart. -/
theorem operandCount_injective : Function.Injective operandCount := fun a c h =>
  Option.some.inj (by rw [← selectorOf_operandCount a, h, selectorOf_operandCount])

@[simp] theorem operandCount_toNat (sel : BitVec 2) : (operandCount sel).toNat = operandBytes sel := by
  rcases selector_cases sel with rfl | rfl | rfl | rfl <;> rfl

/-- The only byte of an instruction is its first. -/
theorem lastRead_instStart_of_fetch {s : State} {b : Byte} {i : Instr}
    (hi : baseInstr b = some i ∨ opcode b = 3#2 ∧ lengthSelector b = 0#2 ∧ i = extInstr (extOpOf b) 0#2 0#32) :
    (lastRead i s).instStart = s.pos := by
  rcases hi with hb | ⟨_, _, rfl⟩
  · rw [lastRead_of_base (baseInstr_eq_some hb).1]; rfl
  · rw [lastRead_extInstr]; rfl

/-- The last operand byte leaves `inst_start` at the escape byte. -/
theorem lastRead_instStart_of_operand (s : State) (x : BitVec 4) {sel : BitVec 2} (hsel : sel ≠ 0#2) (raw : Word) :
    (lastRead (extInstr x sel raw) s).instStart = s.instStart := by
  rw [lastRead_extInstr, State.takeLast, if_neg hsel]; rfl

/-- R57: operand bytes as many as the escape byte asks for make, with it, the encoding of a well-formed instruction. -/
theorem encode_extInstr_of_bytes {b : Byte} {ds : List Byte} (ho : opcode b = 3#2)
    (hlen : ds.length = operandBytes (lengthSelector b)) :
    encode (extInstr (extOpOf b) (lengthSelector b) (readBigEndian ds)) = b :: ds ∧
      (extInstr (extOpOf b) (lengthSelector b) (readBigEndian ds)).wellFormed = true := by
  obtain ⟨hencode, hwf⟩ := encode_of_extendedFields
    (extendedFields_extInstr (extOpOf b) (lengthSelector b) (readBigEndian ds))
  constructor
  · rw [hencode, encodeExt, escapeByte_of_opcode ho, ← hlen,
      bigEndianBytes_readBigEndian ds (hlen ▸ operandBytes_le_four _)]
  · rw [hwf, operandFits, decide_eq_true_iff, ← hlen]
    exact readBigEndian_toNat_lt ds

/-- The first `k` elements, cut before and after the one at `j`. -/
theorem take_eq_take_append_cons {α : Type} {l : List α} {j k : Nat} {b : α} (hjk : j < k) (hb : l[j]? = some b) :
    l.take k = l.take j ++ b :: (l.take k).drop (j + 1) := by
  obtain ⟨hj, hget⟩ := List.getElem?_eq_some_iff.1 ((List.getElem?_take_of_lt hjk).trans hb)
  calc l.take k = (l.take k).take j ++ (l.take k).drop j := (List.take_append_drop j _).symm
    _ = l.take j ++ b :: (l.take k).drop (j + 1) := by
      rw [List.take_take, Nat.min_eq_left hjk.le, List.drop_eq_getElem_cons hj, hget]

/-- Where `Framed` holds and the last operand byte is at `pos`, the bytes since `inst_start` are the encoding of the
instruction that `ext_op`, `byte_count` and the accumulator make, and it is well formed. -/
theorem State.Framed.bytes_of_last {s : State} {d : Byte} {sel : BitVec 2} (hf : s.Framed) (h : s.Inv)
    (hst : s.st = .operand) (hp : s.source[s.pos]? = some d) (hr : s.remaining = 1#3)
    (hc : s.byteCount = operandCount sel) :
    s.source.take (s.pos + 1) = s.source.take s.instStart ++ encode (extInstr s.extOp sel (shiftIn s.acc d)) ∧
      (extInstr s.extOp sel (shiftIn s.acc d)).wellFormed = true := by
  obtain ⟨b, hb, ho, hx, hcount, hacc⟩ := hf.takeOperand h hst hp hst
  simp only [State.takeOperand_source, State.takeOperand_pos, State.takeOperand_instStart, State.takeOperand_extOp,
    State.takeOperand_byteCount, State.takeOperand_acc] at hb hx hcount hacc
  obtain rfl : sel = lengthSelector b := operandCount_injective (hc.symm.trans hcount)
  have hpos : s.pos + 1 = s.instStart + 1 + operandBytes (lengthSelector b) := by
    simpa [hr, hc] using h.operand_pos hst
  have hlen : ((s.source.take (s.pos + 1)).drop (s.instStart + 1)).length = operandBytes (lengthSelector b) := by
    rw [List.length_drop, List.length_take_of_le (Nat.succ_le_of_lt (pos_lt_of_byte hp))]
    omega
  obtain ⟨hencode, hwf⟩ := encode_extInstr_of_bytes ho hlen
  rw [hx, hacc, hencode]
  exact ⟨take_eq_take_append_cons (by omega) hb, hwf⟩

/-- An instruction of one byte, taken in FETCH. -/
theorem State.Decoded.of_exec_fetch {s t : State} {b : Byte} {i : Instr} (hd : s.Decoded) (hst : s.st = .fetch)
    (hv : s.out.valid = false) (hp : s.source[s.pos]? = some b) (hencode : encode i = [b]) (hw : i.wellFormed = true)
    (hi : baseInstr b = some i ∨ opcode b = 3#2 ∧ lengthSelector b = 0#2 ∧ i = extInstr (extOpOf b) 0#2 0#32)
    (hx : exec i s = .next t) : t.Decoded := by
  have hboundary := State.boundary_of_fetch hst
  refine hd.of_exec hx hv hw ?_ ((lastRead_instStart_of_fetch hi).trans hboundary.symm)
  rw [hboundary, hencode, List.take_add_one, hp, Option.toList_some]

/-- An extended form, its last operand byte taken in OPERAND. -/
theorem State.Decoded.of_exec_operand {s t : State} {d : Byte} {sel : BitVec 2} (hd : s.Decoded) (hf : s.Framed)
    (h : s.Inv) (hst : s.st = .operand) (hv : s.out.valid = false) (hp : s.source[s.pos]? = some d)
    (hr : s.remaining = 1#3) (hc : s.byteCount = operandCount sel) (hsel : sel ≠ 0#2)
    (hx : exec (extInstr s.extOp sel (shiftIn s.acc d)) s = .next t) : t.Decoded := by
  have hboundary := State.boundary_of_operand hst
  obtain ⟨hbytes, hw⟩ := hf.bytes_of_last h hst hp hr hc
  refine hd.of_exec hx hv hw ?_ ((lastRead_instStart_of_operand s _ hsel _).trans hboundary.symm)
  rw [hboundary]
  exact hbytes

/-- Settles O5: a step that completes no instruction leaves the boundary and the emitted Instructions; a meaning moves
both on by the instruction whose last byte it reads. -/
theorem stepKeepsDecoded : Obligations.StepKeepsDecoded := by
  intro s t h hf hd hstep
  rcases step_cases hstep with ⟨stream, _, rfl⟩ | ⟨_, hv, _, rfl⟩ | ⟨_, _, rfl⟩ | ⟨_, hst, _, rfl⟩ | ⟨_, hst, _, rfl⟩ |
    ⟨_, _, hst, _, _, _, rfl⟩ | ⟨_, _, hst, _, _, rfl⟩ | ⟨b, i, ht, hst, hp, hencode, hw, hi, hx⟩ |
    ⟨d, sel, ht, hst, hp, hr, hc, hsel, hx⟩
  · exact State.load_decoded stream s.env.later
  · exact hd.congr rfl rfl (State.deliver_emitted (s := s.tick) hv)
  · exact hd
  · exact hd.congr rfl (State.boundary_of_fetch hst).symm rfl
  · exact hd.congr rfl (State.boundary_of_operand hst).symm rfl
  · exact hd.congr rfl (State.boundary_of_fetch hst).symm rfl
  · exact hd.congr rfl (by simp [State.boundary, hst]) rfl
  · exact State.Decoded.of_exec_fetch (s := s.tick) hd hst ht.out_empty hp hencode hw hi hx
  · exact State.Decoded.of_exec_operand (s := s.tick) hd hf h.tick hst ht.out_empty hp hr hc hsel hx

/-- Settles O42: a reset is the one step that rewinds, and `out` is empty wherever a meaning emits. -/
theorem forwardOnly : Obligations.ForwardOnly := by
  intro s t _ hrst hstep
  rcases step_cases hstep with ⟨_, hr, _⟩ | ⟨_, hv, _, rfl⟩ | ⟨_, _, rfl⟩ | ⟨_, _, _, rfl⟩ | ⟨_, _, _, rfl⟩ |
    ⟨_, _, _, _, _, _, rfl⟩ | ⟨_, _, _, _, _, rfl⟩ | ⟨_, _, ht, _, _, _, _, _, hx⟩ | ⟨_, _, ht, _, _, _, _, _, hx⟩
  · simp [hrst] at hr
  · exact ⟨rfl, .inl rfl, (State.deliver_emitted (s := s.tick) hv).symm ▸ List.prefix_rfl⟩
  iterate 3 exact ⟨rfl, .inl rfl, List.prefix_rfl⟩
  iterate 2 exact ⟨rfl, .inr rfl, List.prefix_rfl⟩
  all_goals
    obtain ⟨hsource, hpos⟩ := exec_source_pos hx
    exact ⟨hsource, .inr hpos, exec_emitted (s := s.tick) hx ht.out_empty ▸ List.prefix_append _ _⟩

/-! ### The stream out of sight -/

/-- The same block and agents over another stream. -/
def State.withSource (other : List Byte) (s : State) : State := { s with source := other }

/-- The same outcome of an edge, over another stream. -/
def Phase.withSource (other : List Byte) : Phase → Phase
  | .moved s => .moved (s.withSource other)
  | .run i s => .run i (s.withSource other)
  | .stop f => .stop f

section

variable (s : State) (other : List Byte)

theorem lastRead_withSource (i : Instr) : lastRead i (s.withSource other) = (lastRead i s).withSource other := by
  unfold lastRead
  split
  · rfl
  · unfold State.takeLast
    split <;> rfl

theorem exec_withSource {i : Instr} {t : State} (h : exec i s = .next t) :
    exec i (s.withSource other) = .next (t.withSource other) := by
  rw [exec_eq] at h ⊢
  obtain rfl := Host.Outcome.next.inj h
  rw [lastRead_withSource]
  cases instructionOf i <;> rfl

theorem fetchByte_withSource (b : Byte) : (s.withSource other).fetchByte b = (s.fetchByte b).withSource other := by
  unfold State.fetchByte
  cases baseInstr b with
  | some i => rfl
  | none => by_cases h0 : lengthSelector b = 0#2 <;> simp only [h0, if_true, if_false] <;> rfl

theorem operandByte_withSource (d : Byte) :
    (s.withSource other).operandByte d = (s.operandByte d).withSource other := by
  have hcount : (s.withSource other).byteCount = s.byteCount := rfl
  unfold State.operandByte
  rw [apply_ite (Phase.withSource other), hcount]
  refine if_congr Iff.rfl ?_ rfl
  cases selectorOf s.byteCount with
  | none => rfl
  | some sel => by_cases h0 : sel = 0#2 <;> simp only [h0, if_true, if_false] <;> rfl

theorem acceptByte_withSource (b : Byte) :
    (s.withSource other).acceptByte b = (s.acceptByte b).withSource other := by
  obtain ⟨st⟩ := s
  cases st with
  | fetch => exact fetchByte_withSource _ other b
  | operand => exact operandByte_withSource _ other b
  | halted => rfl
  | faulted => rfl

theorem takeEos_withSource : (s.withSource other).takeEos = s.takeEos.withSource other := by
  obtain ⟨st⟩ := s
  cases st <;> rfl

variable {s other}

/-- The event at `pos` is all that taking one sees of the stream (R36). -/
theorem accept_withSource (hp : other[s.pos]? = s.source[s.pos]?) :
    (s.withSource other).accept = s.accept.withSource other := by
  have hread : (s.withSource other).readEvent = s.readEvent := by
    show eventAt other s.pos = eventAt s.source s.pos
    rw [eventAt, eventAt, hp]
  unfold State.accept
  rw [hread]
  cases s.readEvent with
  | byte b => exact acceptByte_withSource s other b
  | eos => exact congrArg Phase.moved (takeEos_withSource s other)

theorem edge_withSource (hrst : s.env.now.rst = none) (hp : other[s.pos]? = s.source[s.pos]?) :
    (s.withSource other).edge = s.edge.withSource other := by
  have htake : (s.withSource other).tick.accept = s.tick.accept.withSource other := accept_withSource (s := s.tick) hp
  have henv : (s.withSource other).env = s.env := rfl
  simp only [State.edge, henv, hrst]
  rw [apply_ite (Phase.withSource other), apply_ite (Phase.withSource other)]
  refine if_congr Iff.rfl ?_ (if_congr Iff.rfl htake rfl)
  cases s.env.now.outReady <;> rfl

end

/-- Settles O43: every part of a step but the reading of the event at `pos` commutes with the change of stream. -/
theorem noLookahead : Obligations.NoLookahead := by
  intro s t other hrst hp hstep
  have hedge := edge_withSource hrst hp
  show step (s.withSource other) = .next (t.withSource other)
  cases he : s.edge with
  | moved u =>
    rw [he] at hedge
    rw [step_of_moved he] at hstep
    obtain rfl := Host.Outcome.next.inj hstep
    exact step_of_moved hedge
  | run i u =>
    rw [he] at hedge
    rw [step_of_run he] at hstep
    rw [step_of_run hedge]
    exact exec_withSource u other hstep
  | stop f =>
    rw [step_of_stop he] at hstep
    cases hstep

end Sys2Proof.Machine
end


section
/-! PROOFS. The wire format: the decoder and the encoder undo each other, and what a first byte fixes. -/

namespace Sys2Proof.Machine

/-! ### The operand bytes -/

/-- A word is its upper bytes with its low byte shifted in. -/
theorem shiftIn_ushiftRight (x : Word) : shiftIn (x >>> 8) (x.setWidth 8) = x := by
  ext i hi
  by_cases h : i < 8
  · simp [shiftIn, h, BitVec.getLsbD_eq_getElem hi]
  · have hplace : 8 + (i - 8) = i := by omega
    simp [shiftIn, h, hplace, BitVec.getLsbD_eq_getElem hi]

/-- `readBigEndian` undoes R63's `BE_n` on an operand that fits `n` bytes. -/
theorem readBigEndian_bigEndianBytes {n : Nat} {x : Word} (hn : n ≤ 4) (hx : x.toNat < 2 ^ (8 * n)) :
    readBigEndian (bigEndianBytes n x) = x := by
  induction n generalizing x with
  | zero => exact (BitVec.eq_of_toNat_eq (Nat.lt_one_iff.1 hx)).symm
  | succ n ih =>
    have hupper : (x >>> 8).toNat < 2 ^ (8 * n) := by
      rw [BitVec.toNat_ushiftRight, Nat.shiftRight_eq_div_pow, Nat.div_lt_iff_lt_mul (by decide), ← Nat.pow_add]
      exact hx
    have hbytes : bigEndianBytes (n + 1) x = bigEndianBytes n (x >>> 8) ++ [x.setWidth 8] := by
      conv_lhs => rw [← shiftIn_ushiftRight x]
      exact bigEndianBytes_shiftIn _ _ (by omega)
    rw [hbytes, readBigEndian_append_one, ih (by omega) hupper, shiftIn_ushiftRight]

theorem readBigEndian_operand {sel : BitVec 2} {raw : Word} (h : operandFits sel raw = true) :
    readBigEndian (bigEndianBytes (operandBytes sel) raw) = raw :=
  readBigEndian_bigEndianBytes (operandBytes_le_four sel) (of_decide_eq_true h)

/-! ### The decoder by its first byte -/

/-- A base byte is decoded alone. -/
theorem decode_base {b : Byte} {i : Instr} (h : baseInstr b = some i) (rest : List Byte) :
    decode (b :: rest) = .ok (i, rest) := by
  simp only [decode, h]

/-- An escape byte whose operand bytes do not all follow. -/
theorem decode_truncated {b : Byte} {rest : List Byte} (ho : opcode b = 3#2)
    (hlen : rest.length < operandBytes (lengthSelector b)) : decode (b :: rest) = .error .truncatedOperand := by
  simp only [decode, (baseInstr_eq_none b).2 ho, if_pos hlen]

/-- An escape byte, its operand bytes and what follows. -/
theorem decode_escape {b : Byte} {ds : List Byte} (ho : opcode b = 3#2)
    (hlen : ds.length = operandBytes (lengthSelector b)) (rest : List Byte) :
    decode (b :: (ds ++ rest)) = .ok (extInstr (extOpOf b) (lengthSelector b) (readBigEndian ds), rest) := by
  have henough : ¬ (ds ++ rest).length < ds.length := by rw [List.length_append]; omega
  simp only [decode, (baseInstr_eq_none b).2 ho, ← hlen, if_neg henough, List.take_left, List.drop_left]

theorem instrLength_of_base {b : Byte} (h : opcode b ≠ 3#2) : instrLength b = 1 := if_neg h

theorem instrLength_of_escape {b : Byte} (h : opcode b = 3#2) : instrLength b = 1 + operandBytes (lengthSelector b) :=
  if_pos h

/-- Everything `decode` can answer on a first byte: a base form, an extended form of as many operand bytes as the byte
asks for, or a refusal because these do not all come. -/
theorem decode_cons_cases (b : Byte) (bs : List Byte) :
    (∃ i, baseInstr b = some i ∧ instrLength b = 1 ∧ decode (b :: bs) = .ok (i, bs)) ∨
    (∃ ds rest, bs = ds ++ rest ∧ opcode b = 3#2 ∧ ds.length = operandBytes (lengthSelector b) ∧
      instrLength b = 1 + ds.length ∧
      decode (b :: bs) = .ok (extInstr (extOpOf b) (lengthSelector b) (readBigEndian ds), rest)) ∨
    (opcode b = 3#2 ∧ bs.length + 1 < instrLength b ∧ decode (b :: bs) = .error .truncatedOperand) := by
  cases hb : baseInstr b with
  | some i =>
    obtain ⟨_, _, _, ho⟩ := baseInstr_eq_some hb
    exact .inl ⟨i, rfl, instrLength_of_base ho, decode_base hb bs⟩
  | none =>
    have ho := (baseInstr_eq_none b).1 hb
    have hl := instrLength_of_escape ho
    rcases Nat.lt_or_ge bs.length (operandBytes (lengthSelector b)) with hlt | hge
    · exact .inr (.inr ⟨ho, by omega, decode_truncated ho hlt⟩)
    · have hlen := List.length_take_of_le hge
      refine .inr (.inl ⟨_, _, (List.take_append_drop _ bs).symm, ho, hlen, by rw [hlen, hl], ?_⟩)
      have hdec := decode_escape ho hlen (bs.drop (operandBytes (lengthSelector b)))
      rwa [List.take_append_drop] at hdec

/-- The byte of a base form, and the form it decodes to. -/
theorem encode_base {i : Instr} (h : extendedFields i = none) : ∃ b, encode i = [b] ∧ baseInstr b = some i := by
  have himm : ∀ imm : BitVec 6, baseInstr (baseByte 0#2 imm) = some (.movex imm) ∧
      baseInstr (baseByte 1#2 imm) = some (.movey imm) ∧ baseInstr (baseByte 2#2 imm) = some (.wait imm) := by decide
  cases i with
  | movex imm => exact ⟨_, rfl, (himm imm).1⟩
  | movey imm => exact ⟨_, rfl, (himm imm).2.1⟩
  | wait imm => exact ⟨_, rfl, (himm imm).2.2⟩
  | _ => cases h

/-- The bytes of a well-formed extended form, as an escape byte with its fields and the operand bytes. -/
theorem encode_extended {i : Instr} {x : BitVec 4} {sel : BitVec 2} {raw : Word}
    (h : extendedFields i = some (x, sel, raw)) (hw : i.wellFormed = true) :
    ∃ b ds, encode i = b :: ds ∧ opcode b = 3#2 ∧ extOpOf b = x ∧ lengthSelector b = sel ∧
      ds.length = operandBytes sel ∧ readBigEndian ds = raw := by
  obtain ⟨hencode, hfits⟩ := encode_of_extendedFields h
  obtain ⟨ho, hl, hx⟩ := escapeByte_fields x sel
  exact ⟨_, _, hencode, ho, hx, hl, bigEndianBytes_length _ _, readBigEndian_operand (hfits ▸ hw)⟩

/-- Settles O16: a base byte carries its immediate, an escape byte its two fields, and `readBigEndian` undoes `BE_n`. -/
theorem decodeEncode : Obligations.DecodeEncode := by
  intro i rest hw
  cases h : extendedFields i with
  | none =>
    obtain ⟨b, hencode, hb⟩ := encode_base h
    rw [hencode]
    exact decode_base hb rest
  | some fields =>
    obtain ⟨x, sel, raw⟩ := fields
    obtain ⟨b, ds, hencode, ho, rfl, rfl, hlen, rfl⟩ := encode_extended h hw
    rw [hencode, List.cons_append, decode_escape ho hlen, ← eq_extInstr h]

/-- Settles O17: by what `decode` can answer; the operand bytes taken are those `encode` writes back. -/
theorem encodeDecode : Obligations.EncodeDecode := by
  intro bs rest i hdec
  cases bs with
  | nil => cases hdec
  | cons b bs =>
    rcases decode_cons_cases b bs with ⟨j, hb, _, e⟩ | ⟨ds, tail, rfl, ho, hlen, _, e⟩ | ⟨_, _, e⟩
    · cases e.symm.trans hdec
      obtain ⟨_, hw, hencode, _⟩ := baseInstr_eq_some hb
      exact ⟨hw, by rw [hencode]; rfl⟩
    · cases e.symm.trans hdec
      obtain ⟨hencode, hw⟩ := encode_extInstr_of_bytes ho hlen
      exact ⟨hw, by rw [hencode]; rfl⟩
    · cases e.symm.trans hdec

/-- Settles O18: by what `decode` can answer; the length decides which. -/
theorem decodeTotal : Obligations.DecodeTotal := by
  refine ⟨rfl, fun b bs => ?_⟩
  rcases decode_cons_cases b bs with ⟨i, _, hl, e⟩ | ⟨ds, rest, rfl, _, _, hl, e⟩ | ⟨_, hl, e⟩
  · rw [hl]
    exact ⟨fun _ => ⟨i, e⟩, fun hlt => absurd hlt (by omega)⟩
  · rw [hl, Nat.add_comm 1, List.drop_succ_cons, List.drop_left]
    exact ⟨fun _ => ⟨_, e⟩, fun hlt => absurd hlt (by rw [List.length_append]; omega)⟩
  · exact ⟨fun hle => absurd hle (by omega), fun _ => e⟩

/-- Settles O19: a base form always stands for an Instruction, an extended form exactly when `xop` is below 7. -/
theorem unrecognizedExactly : Obligations.UnrecognizedExactly := by
  refine ⟨fun b bs rest i hdec => ?_, by decide⟩
  rcases decode_cons_cases b bs with ⟨j, hb, _, e⟩ | ⟨ds, tail, _, ho, _, _, e⟩ | ⟨_, _, e⟩
  · cases e.symm.trans hdec
    obtain ⟨hbase, _, _, ho⟩ := baseInstr_eq_some hb
    have hsome := Option.isSome_iff_ne_none.1 (instructionOf_base hbase)
    exact iff_of_false hsome fun h => ho h.1
  · cases e.symm.trans hdec
    rw [instructionOf_eq_none (extendedFields_extInstr _ _ _)]
    exact (and_iff_right ho).symm
  · cases e.symm.trans hdec

/-- Settles O12. -/
theorem selectorMap : Obligations.SelectorMap :=
  ⟨operandBytes_zero, operandBytes_one, operandBytes_two, operandBytes_three, operandCount_toNat⟩

/-- Settles O20: each word is evaluated. -/
theorem sampleWords : Obligations.SampleWords := ⟨rfl, rfl, rfl, rfl, rfl, rfl, rfl, rfl, rfl, rfl⟩

end Sys2Proof.Machine
end

section
/-! PROOFS. The operand of an extended form as a signed value, and the canonical encoder. -/

namespace Sys2Proof.Machine

/-! ### `toSigned` and the operand -/

/-- R78's algorithm reads a vector of `L` bits as its two's-complement value. -/
theorem toSigned_toNat {L : Nat} (x : BitVec L) : toSigned x.toNat L = x.toInt := by
  cases L with
  | zero => simp [toSigned, BitVec.of_length_zero]
  | succ k =>
    have hmsb : x.toNat.testBit k = x.msb := by rw [BitVec.msb_eq_getLsbD_last]; rfl
    have hlt : x.toNat < 2 ^ k * 2 := x.isLt
    rw [toSigned, if_neg k.succ_ne_zero, Nat.add_sub_cancel, hmsb, Nat.and_two_pow_sub_one_eq_mod,
      BitVec.toInt_eq_msb_cond]
    split
    · next h =>
      have hge : 2 ^ k ≤ x.toNat := by simpa using BitVec.le_toNat_of_msb_true h
      rw [Nat.mod_eq_sub_mod hge, Nat.mod_eq_of_lt (by omega), Nat.cast_sub hge, Nat.pow_succ]
      push_cast
      ring
    · rfl

/-- An operand that fits its bytes is the vector of those bytes, sign-extended (R56, R81). -/
theorem toSigned_of_fits {sel : BitVec 2} {raw : Word} (h : operandFits sel raw = true) :
    toSigned raw.toNat (8 * operandBytes sel) = (raw.setWidth (8 * operandBytes sel)).toInt := by
  rw [← toSigned_toNat, BitVec.toNat_setWidth, Nat.mod_eq_of_lt (of_decide_eq_true h)]

theorem operandValue_of_fits {sel : BitVec 2} {raw : Word} (h : operandFits sel raw = true) :
    operandValue sel raw = (raw.setWidth (8 * operandBytes sel)).signExtend 32 :=
  congrArg int32 (toSigned_of_fits h)

theorem operandFits_three (raw : Word) : operandFits 3#2 raw = true := decide_eq_true raw.isLt

/-- R81: no operand that fits its bytes loses its value in 32 bits. -/
theorem operandValue_toInt {sel : BitVec 2} {raw : Word} (h : operandFits sel raw = true) :
    (operandValue sel raw).toInt = toSigned raw.toNat (8 * operandBytes sel) := by
  have hle := operandBytes_le_four sel
  rw [operandValue_of_fits h, BitVec.toInt_signExtend_of_le (by omega), toSigned_of_fits h]

/-- Settles O15: every clause but the first is the sign extension of the operand's bytes. -/
theorem operandValueExact : Obligations.OperandValueExact := by
  refine ⟨fun raw => rfl, fun raw h => ?_, fun raw h => ?_, fun raw => ?_, fun sel raw h => operandValue_toInt h⟩
  · exact operandValue_of_fits (sel := 1#2) (decide_eq_true h)
  · exact operandValue_of_fits (sel := 2#2) (decide_eq_true h)
  · rw [operandValue_of_fits (operandFits_three raw)]
    exact (BitVec.signExtend_eq _).trans (BitVec.setWidth_eq raw)

/-! ### The shortest selector -/

/-- `fits` says that the value is one of `8n` bits. -/
theorem fits_toInt {n : Nat} (x : BitVec (8 * n)) : fits x.toInt n = true := by
  unfold fits
  split
  · next h => subst h; simp [BitVec.of_length_zero]
  · exact decide_eq_true ⟨BitVec.le_toInt x, Int.le_sub_one_of_lt BitVec.toInt_lt⟩

theorem toInt_ofInt_of_fits {v : Int} {n : Nat} (h : fits v n = true) : (BitVec.ofInt (8 * n) v).toInt = v := by
  unfold fits at h
  split at h
  · next hn => subst hn; simpa [BitVec.of_length_zero] using (of_decide_eq_true h).symm
  · next hn =>
    obtain ⟨hlo, hhi⟩ := of_decide_eq_true h
    exact BitVec.toInt_ofInt_eq_self (by omega) hlo (by omega)

theorem fits_operandValue {sel : BitVec 2} {raw : Word} (h : operandFits sel raw = true) :
    fits (operandValue sel raw).toInt (operandBytes sel) = true := by
  rw [operandValue_toInt h, toSigned_of_fits h]
  exact fits_toInt _

/-- Four bytes hold every 32-bit value. -/
theorem fits_shortestSelector (v : Word) : fits v.toInt (operandBytes (shortestSelector v.toInt)) = true := by
  unfold shortestSelector
  split_ifs with h0 h1 h2
  · exact h0
  · exact h1
  · exact h2
  · exact fits_toInt (n := 4) v

/-- R63: no selector that holds the value has fewer bytes. -/
theorem shortestSelector_le {v : Int} {sel : BitVec 2} (h : fits v (operandBytes sel) = true) :
    operandBytes (shortestSelector v) ≤ operandBytes sel := by
  have hle := operandBytes_le_four (shortestSelector v)
  rcases selector_cases sel with rfl | rfl | rfl | rfl
  · rw [operandBytes_zero] at h
    simp [shortestSelector, h]
  · rw [operandBytes_one] at h
    simp only [shortestSelector, h, if_true]
    split_ifs <;> simp
  · rw [operandBytes_two] at h
    simp only [shortestSelector, h, if_true]
    split_ifs <;> simp
  · exact hle

/-! ### The canonical encoder -/

/-- The operand bytes `ext(x, v)` of R63 writes. -/
def canonicalRaw (v : Word) : Word :=
  BitVec.ofInt 32 (v.toInt % 2 ^ (8 * operandBytes (shortestSelector v.toInt)))

/-- `v mod 2^L`, as a word, is the low `L` bits of `v`. -/
theorem ofInt_emod_toNat (v : Int) {L : Nat} (hL : L ≤ 32) :
    (BitVec.ofInt 32 (v % 2 ^ L)).toNat = (BitVec.ofInt L v).toNat := by
  have hpow : (2 : Int) ^ L ≤ 2 ^ 32 := pow_le_pow_right₀ (by decide) hL
  have hlt : v % 2 ^ L < 2 ^ 32 := (Int.emod_lt_of_pos v (by positivity)).trans_le hpow
  have hnonneg : 0 ≤ v % 2 ^ L := Int.emod_nonneg v (by positivity)
  rw [BitVec.toNat_ofInt, BitVec.toNat_ofInt, Nat.cast_pow, Nat.cast_pow, Nat.cast_ofNat,
    Int.emod_eq_of_lt hnonneg hlt]

theorem canonicalRaw_toNat (v : Word) :
    (canonicalRaw v).toNat = (BitVec.ofInt (8 * operandBytes (shortestSelector v.toInt)) v.toInt).toNat :=
  ofInt_emod_toNat _ (Nat.mul_le_mul_left 8 (operandBytes_le_four _))

theorem canonicalRaw_fits (v : Word) : operandFits (shortestSelector v.toInt) (canonicalRaw v) = true := by
  rw [operandFits, decide_eq_true_iff, canonicalRaw_toNat]
  exact BitVec.isLt _

/-- The operand `ext(x, v)` writes is read back as `v`. -/
theorem operandValue_canonicalRaw (v : Word) : operandValue (shortestSelector v.toInt) (canonicalRaw v) = v := by
  rw [operandValue, canonicalRaw_toNat, toSigned_toNat, toInt_ofInt_of_fits (fits_shortestSelector v), int32,
    BitVec.ofInt_toInt]

/-- The form `enc` of R63 chooses for an Instruction. -/
def canonicalInstr : Instruction → Instr
  | .moveX d =>
    if -32 ≤ d.toInt ∧ d.toInt ≤ 31 then .movex (BitVec.ofInt 6 (d.toInt % 64))
    else .extMovex (shortestSelector d.toInt) (canonicalRaw d)
  | .moveY d =>
    if -32 ≤ d.toInt ∧ d.toInt ≤ 31 then .movey (BitVec.ofInt 6 (d.toInt % 64))
    else .extMovey (shortestSelector d.toInt) (canonicalRaw d)
  | .wait u =>
    if 0 ≤ u.toInt ∧ u.toInt ≤ 63 then .wait (BitVec.ofInt 6 u.toInt)
    else .extWait (shortestSelector u.toInt) (canonicalRaw u)
  | .togglePen => .extTogglePen 0#2 0#32
  | .clear => .extClear 0#2 0#32
  | .showAndWait => .extShowAndWait 0#2 0#32
  | .setColour v => .extSetColour (shortestSelector v.toInt) (canonicalRaw v)

theorem encode_canonicalInstr (v : Instruction) : encode (canonicalInstr v) = canonical v := by
  cases v with
  | moveX d => exact apply_ite encode _ _ _
  | moveY d => exact apply_ite encode _ _ _
  | wait u => exact apply_ite encode _ _ _
  | togglePen => rfl
  | clear => rfl
  | showAndWait => rfl
  | setColour c => rfl

/-- A signed 6-bit immediate holds -32 to 31 (R54). -/
theorem signExtend_immediate {d : Word} (h : -32 ≤ d.toInt ∧ d.toInt ≤ 31) :
    (BitVec.ofInt 6 (d.toInt % 64)).signExtend 32 = d := by
  have hvalue : (BitVec.ofInt 6 (d.toInt % 64)).toInt = d.toInt :=
    calc (BitVec.ofInt 6 (d.toInt % 64)).toInt = (d.toInt % (64 : Nat)).bmod 64 := BitVec.toInt_ofInt _
      _ = d.toInt.bmod 64 := Int.emod_bmod _ _
      _ = d.toInt := Int.bmod_eq_of_le (by omega) (by omega)
  rw [BitVec.signExtend, hvalue, BitVec.ofInt_toInt]

/-- An unsigned 6-bit immediate holds 0 to 63 (R55). -/
theorem zeroExtend_immediate {u : Word} (h : 0 ≤ u.toInt ∧ u.toInt ≤ 63) :
    (BitVec.ofInt 6 u.toInt).zeroExtend 32 = u := by
  have hvalue : (BitVec.ofInt 6 u.toInt).toNat = u.toInt.toNat := by
    rw [BitVec.toNat_ofInt]; omega
  have hnat : u.toInt.toNat = u.toNat := by
    have hcond := u.toInt_eq_toNat_cond
    split at hcond <;> omega
  apply BitVec.eq_of_toNat_eq
  rw [BitVec.zeroExtend_eq_setWidth, BitVec.toNat_setWidth_of_le (by decide), hvalue, hnat]

/-- A well-formed instruction that decodes to the Instruction `v`. -/
def StandsFor (i : Instr) (v : Instruction) : Prop := i.wellFormed = true ∧ instructionOf i = some v

theorem StandsFor.ite {p : Prop} [Decidable p] {i j : Instr} {v : Instruction} (hi : p → StandsFor i v)
    (hj : StandsFor j v) : StandsFor (if p then i else j) v := by
  split
  · next h => exact hi h
  · exact hj

/-- The form `enc` chooses stands for its Instruction, whichever side of the immediate's range it is on. -/
theorem canonicalInstr_standsFor (v : Instruction) : StandsFor (canonicalInstr v) v := by
  cases v with
  | moveX d =>
    exact .ite (fun h => ⟨rfl, congrArg (some ∘ Instruction.moveX) (signExtend_immediate h)⟩)
      ⟨canonicalRaw_fits d, congrArg (some ∘ Instruction.moveX) (operandValue_canonicalRaw d)⟩
  | moveY d =>
    exact .ite (fun h => ⟨rfl, congrArg (some ∘ Instruction.moveY) (signExtend_immediate h)⟩)
      ⟨canonicalRaw_fits d, congrArg (some ∘ Instruction.moveY) (operandValue_canonicalRaw d)⟩
  | wait u =>
    exact .ite (fun h => ⟨rfl, congrArg (some ∘ Instruction.wait) (zeroExtend_immediate h)⟩)
      ⟨canonicalRaw_fits u, congrArg (some ∘ Instruction.wait) (operandValue_canonicalRaw u)⟩
  | togglePen => exact ⟨by decide, rfl⟩
  | clear => exact ⟨by decide, rfl⟩
  | showAndWait => exact ⟨by decide, rfl⟩
  | setColour c => exact ⟨canonicalRaw_fits c, congrArg (some ∘ Instruction.setColour) (operandValue_canonicalRaw c)⟩

theorem canonicalExt_length (x : BitVec 4) (v : Word) :
    (canonicalExt x v).length = 1 + operandBytes (shortestSelector v.toInt) := encodeExt_length _ _ _

/-- No Instruction's canonical encoding is longer than the shortest extended form of its operand. -/
theorem canonical_length_le (v : Instruction) :
    (canonical v).length ≤ 1 + operandBytes (shortestSelector v.operand.toInt) := by
  have hite (p : Prop) [Decidable p] (b : Byte) (x : BitVec 4) (d : Word) :
      (if p then [b] else canonicalExt x d).length ≤ 1 + operandBytes (shortestSelector d.toInt) := by
    split
    · exact Nat.le_add_right 1 _
    · exact (canonicalExt_length x d).le
  cases v with
  | moveX d => exact hite _ _ _ d
  | moveY d => exact hite _ _ _ d
  | wait u => exact hite _ _ _ u
  | togglePen => decide
  | clear => decide
  | showAndWait => decide
  | setColour c => exact (canonicalExt_length 6#4 c).le

/-- What a base form stands for has a canonical encoding of one byte. -/
theorem canonical_length_of_base {i : Instr} {v : Instruction} (h : extendedFields i = none)
    (hv : instructionOf i = some v) : (canonical v).length = 1 := by
  have himm : ∀ imm : BitVec 6, (-32 ≤ (imm.signExtend 32).toInt ∧ (imm.signExtend 32).toInt ≤ 31) ∧
      (0 ≤ (imm.zeroExtend 32).toInt ∧ (imm.zeroExtend 32).toInt ≤ 63) := by decide
  cases i with
  | movex imm => cases hv; simp only [canonical, if_pos (himm imm).1, List.length_singleton]
  | movey imm => cases hv; simp only [canonical, if_pos (himm imm).1, List.length_singleton]
  | wait imm => cases hv; simp only [canonical, if_pos (himm imm).2, List.length_singleton]
  | _ => cases h

/-- The operand of what an extended form stands for fits the form's bytes. -/
theorem fits_operand_of_extended {i : Instr} {v : Instruction} {x : BitVec 4} {sel : BitVec 2} {raw : Word}
    (h : extendedFields i = some (x, sel, raw)) (hw : i.wellFormed = true) (hv : instructionOf i = some v) :
    fits v.operand.toInt (operandBytes sel) = true := by
  have hfits := fits_operandValue ((encode_of_extendedFields h).2 ▸ hw)
  have hzero : fits (0#32).toInt (operandBytes sel) = true := by
    rcases selector_cases sel with rfl | rfl | rfl | rfl <;> decide
  cases i with
  | movex | movey | wait => cases h
  | extMovex | extMovey | extWait | extSetColour => cases h; cases hv; exact hfits
  | extTogglePen | extClear | extShowAndWait => cases h; cases hv; exact hzero
  | unrecognizedExt7 | unrecognizedExt8 => cases hv

/-- Settles O21: `enc` is `encode` of the form it chooses, and a selector that holds the operand has no fewer bytes than
the shortest. -/
theorem canonicalShortest : Obligations.CanonicalShortest := by
  intro v
  obtain ⟨hwf, hstands⟩ := canonicalInstr_standsFor v
  constructor
  · have hdec := decodeEncode (canonicalInstr v) [] hwf
    rw [List.append_nil, encode_canonicalInstr] at hdec
    exact ⟨canonicalInstr v, hdec, hstands⟩
  · intro i hw hv
    cases h : extendedFields i with
    | none =>
      obtain ⟨b, hencode, _⟩ := encode_base h
      rw [canonical_length_of_base h hv, hencode, List.length_singleton]
    | some fields =>
      obtain ⟨x, sel, raw⟩ := fields
      calc (canonical v).length ≤ 1 + operandBytes (shortestSelector v.operand.toInt) := canonical_length_le v
        _ ≤ 1 + operandBytes sel := Nat.add_le_add_left (shortestSelector_le (fits_operand_of_extended h hw hv)) 1
        _ = (encode i).length := by rw [(encode_of_extendedFields h).1, encodeExt_length]

end Sys2Proof.Machine
end

section
/-! PROOFS. The transaction-level decoder on whole streams, the machine under eager agents following it, and the round
trip of whole streams. -/

namespace Sys2Proof.Machine

/-! ### The transaction step, by what is read -/

theorem transact_fetch_byte {s : State} (hst : s.st = .fetch) (b : Byte) :
    transact s (.byte b) = transactFetch b s := by
  simp only [transact, hst]

theorem transact_operand_byte {s : State} (hst : s.st = .operand) (d : Byte) :
    transact s (.byte d) = transactOperand d s := by
  simp only [transact, hst]

/-- A base byte in FETCH is taken and emitted at once. -/
theorem transact_base {s : State} {b : Byte} {i : Instr} {v : Instruction} (hst : s.st = .fetch)
    (hb : baseInstr b = some i) (hv : instructionOf i = some v) :
    transact s (.byte b) = ({ s.takeOpcode with st := .fetch }, .emit v) := by
  rw [transact_fetch_byte hst]
  rcases selector_cases (opcode b) with ho | ho | ho | ho
  case inr.inr.inr => exact absurd ((baseInstr_eq_none b).2 ho) (by simp [hb])
  all_goals
    simp [baseInstr, ho] at hb
    subst hb; cases hv
    simp [transactFetch, ho, signed6, unsigned6, int32_signedImmediate, State.takeOpcode]

/-- An escape byte with selector 0 is dispatched at once (R92). -/
theorem transact_escape_alone {s : State} {b : Byte} (hst : s.st = .fetch) (ho : opcode b = 3#2)
    (hl : lengthSelector b = 0#2) :
    transact s (.byte b) = transactDispatch (extOpOf b).toNat 0 0 s.pos (s.latchEscape (extOpOf b) 0#2) := by
  simp only [transact_fetch_byte hst, transactFetch, ho, hl]
  rfl

/-- Any other escape byte is latched (R87). -/
theorem transact_escape {s : State} {b : Byte} (hst : s.st = .fetch) (ho : opcode b = 3#2)
    (hl : lengthSelector b ≠ 0#2) :
    transact s (.byte b) = (s.awaitOperand (extOpOf b) (lengthSelector b), .nothing) := by
  have hn : nextPowerOfTwo (lengthSelector b).toNat ≠ 0 := mt (operandBytes_eq_zero_iff _).1 hl
  simp only [transact_fetch_byte hst, transactFetch, ho]
  exact if_neg hn

/-- The last operand byte dispatches (R91). -/
theorem transact_operand_last {s : State} (d : Byte) (hst : s.st = .operand) (hr : s.remaining = 1#3) :
    transact s (.byte d) = transactDispatch s.extOp.toNat (shiftIn s.acc d).toNat s.byteCount.toNat s.instStart
      (s.takeOperand (shiftIn s.acc d)) := by
  rw [transact_operand_byte hst]
  exact if_pos hr

/-- Any other operand byte is shifted in (R89). -/
theorem transact_operand_more {s : State} (d : Byte) (hst : s.st = .operand) (hr : s.remaining ≠ 1#3) :
    transact s (.byte d) = (s.takeOperand (shiftIn s.acc d), .nothing) := by
  rw [transact_operand_byte hst]
  exact if_neg hr

theorem transact_eos_fetch {s : State} (hst : s.st = .fetch) : transact s .eos = (s.halt, .halt) := by
  simp only [transact, hst]
  rfl

theorem transact_eos_operand {s : State} (hst : s.st = .operand) :
    transact s .eos = (s.raiseFault .truncatedStream s.instStart, .fault .truncatedStream s.instStart) := by
  simp only [transact, hst]
  rfl

/-- The dispatch of R85 emits what the form stands for, and refuses a form that stands for nothing. -/
theorem transactDispatch_eq {i : Instr} {x : BitVec 4} {sel : BitVec 2} {raw : Word}
    (h : extendedFields i = some (x, sel, raw)) (start : Nat) (s : State) :
    transactDispatch x.toNat raw.toNat (operandBytes sel) start s = match instructionOf i with
      | some v => ({ s with st := .fetch }, .emit v)
      | none => (s.raiseFault .unrecognizedExtendedOpcode start, .fault .unrecognizedExtendedOpcode start) := by
  cases i with
  | movex | movey | wait => cases h
  | extMovex | extMovey | extWait | extSetColour | extTogglePen | extClear | extShowAndWait | unrecognizedExt7 =>
    cases h; rfl
  | unrecognizedExt8 low sel raw =>
    cases h
    have hlow : (1#1 ++ low).toNat = low.toNat + 8 := by revert low; decide
    rw [hlow]
    rfl

theorem transactDispatch_emit {i : Instr} {x : BitVec 4} {sel : BitVec 2} {raw : Word} {v : Instruction}
    (h : extendedFields i = some (x, sel, raw)) (hv : instructionOf i = some v) (start : Nat) (s : State) :
    transactDispatch x.toNat raw.toNat (operandBytes sel) start s = ({ s with st := .fetch }, .emit v) := by
  rw [transactDispatch_eq h, hv]

/-! ### The transaction step, by what it answers -/

/-- What a transaction step from FETCH or OPERAND can answer, and the state it answers that in. -/
inductive Output.AnsweredIn (t : State) : Output → Prop
  | nothing (h : t.st = .operand) : AnsweredIn t .nothing
  | emit (v : Instruction) (h : t.st = .fetch) : AnsweredIn t (.emit v)
  | halt (h : t.st = .halted) : AnsweredIn t .halt
  | fault (h : t.st = .faulted) : AnsweredIn t (.fault t.errKind t.errOffset)

/-- The registers of a state, `out` apart, among the surroundings of another. -/
def State.among (m s : State) : State :=
  { s with out := m.out, source := m.source, delivered := m.delivered, env := m.env }

theorem State.among_self (s : State) : s.among s = s := rfl

theorem transactDispatch_among (m : State) (x raw n start : Nat) (s : State) :
    transactDispatch x raw n start (m.among s) =
      (m.among (transactDispatch x raw n start s).1, (transactDispatch x raw n start s).2) := by
  unfold transactDispatch
  split <;> rfl

theorem transactDispatch_answeredIn (x raw n start : Nat) (s : State) :
    (transactDispatch x raw n start s).2.AnsweredIn (transactDispatch x raw n start s).1 := by
  unfold transactDispatch
  split
  case h_8 => exact .fault rfl
  all_goals exact .emit _ rfl

/-- A transaction step sees nothing of the surroundings, and leaves them. -/
theorem transact_among (m s : State) (ev : Event) :
    transact (m.among s) ev = (m.among (transact s ev).1, (transact s ev).2) := by
  have hm : (m.among s).st = s.st := rfl
  cases hst : s.st with
  | fetch =>
    rw [hst] at hm
    cases ev with
    | eos => rw [transact_eos_fetch hst, transact_eos_fetch hm]; rfl
    | byte b =>
      cases hb : baseInstr b with
      | some i =>
        obtain ⟨v, hv⟩ := Option.isSome_iff_exists.1 (instructionOf_base (baseInstr_eq_some hb).1)
        rw [transact_base hst hb hv, transact_base hm hb hv]; rfl
      | none =>
        have ho := (baseInstr_eq_none b).1 hb
        by_cases hl : lengthSelector b = 0#2
        · rw [transact_escape_alone hst ho hl, transact_escape_alone hm ho hl]
          exact transactDispatch_among m _ _ _ _ (s.latchEscape (extOpOf b) 0#2)
        · rw [transact_escape hst ho hl, transact_escape hm ho hl]; rfl
  | operand =>
    rw [hst] at hm
    cases ev with
    | eos => rw [transact_eos_operand hst, transact_eos_operand hm]; rfl
    | byte d =>
      by_cases hr : s.remaining = 1#3
      · rw [transact_operand_last d hst hr, transact_operand_last d hm hr]
        exact transactDispatch_among m _ _ _ _ (s.takeOperand (shiftIn s.acc d))
      · rw [transact_operand_more d hst hr, transact_operand_more d hm hr]; rfl
  | halted => simp only [transact, hm, hst]
  | faulted => simp only [transact, hm, hst]

theorem transact_answeredIn {s t : State} {ev : Event} {o : Output} (hst : s.st = .fetch ∨ s.st = .operand)
    (he : transact s ev = (t, o)) : o.AnsweredIn t := by
  suffices h : (transact s ev).2.AnsweredIn (transact s ev).1 by rwa [he] at h
  rcases hst with hst | hst
  · cases ev with
    | eos => rw [transact_eos_fetch hst]; exact .halt rfl
    | byte b =>
      cases hb : baseInstr b with
      | some i =>
        obtain ⟨v, hv⟩ := Option.isSome_iff_exists.1 (instructionOf_base (baseInstr_eq_some hb).1)
        rw [transact_base hst hb hv]; exact .emit v rfl
      | none =>
        have ho := (baseInstr_eq_none b).1 hb
        by_cases hl : lengthSelector b = 0#2
        · rw [transact_escape_alone hst ho hl]; exact transactDispatch_answeredIn _ _ _ _ _
        · rw [transact_escape hst ho hl]; exact .nothing rfl
  · cases ev with
    | eos => rw [transact_eos_operand hst]; exact .fault rfl
    | byte d =>
      by_cases hr : s.remaining = 1#3
      · rw [transact_operand_last d hst hr]; exact transactDispatch_answeredIn _ _ _ _ _
      · rw [transact_operand_more d hst hr]; exact .nothing hst

/-! ### The machine's step, by the transaction step -/

/-- The state in which the machine shows what a transaction step answers: an Instruction is loaded into `out`, and the
other outputs are states already. -/
def shown : State × Output → State
  | (t, .nothing) => t
  | (t, .emit v) => t.emit v
  | (t, .halt) => t
  | (t, .fault _ _) => t

/-- A meaning is the dispatch of R85, after the reading of its last byte. -/
theorem exec_eq_dispatch {i : Instr} {x : BitVec 4} {sel : BitVec 2} {raw : Word} {s : State} {r : State × Output}
    (h : extendedFields i = some (x, sel, raw))
    (hr : transactDispatch x.toNat raw.toNat (operandBytes sel) (s.takeLast x sel raw).instStart
      (s.takeLast x sel raw) = r) : exec i s = .next (shown r) := by
  have hread : lastRead i s = s.takeLast x sel raw := by simp only [lastRead, h]
  subst hr
  rw [exec_eq, hread, transactDispatch_eq h]
  cases instructionOf i <;> rfl

/-- The edge of a taken event. -/
theorem edge_of_takesEvent {s : State} (ht : s.takesEvent) : s.edge = s.tick.accept := by
  rcases edge_cases s with ⟨_, hr, _⟩ | ⟨_, hv, _⟩ | ⟨_, hv, _⟩ | ⟨_, _, hn, _⟩ | ⟨_, e⟩
  · simp [ht.1] at hr
  · simp [ht.out_empty] at hv
  · simp [ht.out_empty] at hv
  · exact absurd ht hn
  · exact e

theorem readEvent_of_some {s : State} {b : Byte} (h : s.source[s.pos]? = some b) : s.readEvent = .byte b := by
  rw [State.readEvent, eventAt, h]

theorem readEvent_of_none {s : State} (h : s.source[s.pos]? = none) : s.readEvent = .eos := by
  rw [State.readEvent, eventAt, h]

/-- Where the machine takes an event, its step is the transaction step on that event, and shows its output. -/
theorem step_eq_transact {s : State} (h : s.Inv) (ht : s.takesEvent) :
    step s = .next (shown (transact s.tick s.tick.readEvent)) := by
  have hedge := edge_of_takesEvent ht
  rcases accept_cases (s := s.tick) ht.2.2 with ⟨hst, hp, ea⟩ | ⟨hst, hp, ea⟩ | ⟨b, i, hst, hp, hb, ea⟩ |
    ⟨b, hst, hp, ho, hl, ea⟩ | ⟨b, hst, hp, ho, hl, ea⟩ | ⟨d, hst, hp, hr, ea⟩ | ⟨d, sel, hst, hp, hr, hc, h0, ea⟩ |
    ⟨d, hst, _, _, hc, _⟩
  · rw [step_of_moved (hedge.trans ea), readEvent_of_none hp, transact_eos_fetch hst]; rfl
  · rw [step_of_moved (hedge.trans ea), readEvent_of_none hp, transact_eos_operand hst]; rfl
  · obtain ⟨hbase, _⟩ := baseInstr_eq_some hb
    obtain ⟨v, hv⟩ := Option.isSome_iff_exists.1 (instructionOf_base hbase)
    rw [step_of_run (hedge.trans ea), readEvent_of_some hp, transact_base hst hb hv, exec_eq, hv,
      lastRead_of_base hbase]
    rfl
  · rw [step_of_run (hedge.trans ea), readEvent_of_some hp, transact_escape_alone hst ho hl]
    exact exec_eq_dispatch (extendedFields_extInstr _ _ _) rfl
  · rw [step_of_moved (hedge.trans ea), readEvent_of_some hp, transact_escape hst ho hl]; rfl
  · rw [step_of_moved (hedge.trans ea), readEvent_of_some hp, transact_operand_more d hst hr]; rfl
  · have hread : s.tick.takeLast s.tick.extOp sel (shiftIn s.tick.acc d) = s.tick.takeOperand (shiftIn s.tick.acc d) :=
      if_neg h0
    rw [step_of_run (hedge.trans ea), readEvent_of_some hp, transact_operand_last d hst hr, hc, operandCount_toNat]
    refine exec_eq_dispatch (extendedFields_extInstr _ _ _) ?_
    rw [hread]; rfl
  · rcases h.operand_count hst with e | e | e
    · exact absurd (hc 1#2 e) (by decide)
    · exact absurd (hc 2#2 e) (by decide)
    · exact absurd (hc 3#2 e) (by decide)

/-! ### The machine follows `decodeStream` -/

/-- `decodeLoop` sees nothing of the surroundings. -/
theorem decodeLoop_among (source : List Byte) (m : State) (fuel : Nat) (s : State) (out : List Instruction) :
    decodeLoop source fuel (m.among s) out = decodeLoop source fuel s out := by
  induction fuel generalizing s out with
  | zero => rfl
  | succ fuel ih =>
    have hpos : (m.among s).pos = s.pos := rfl
    rw [decodeLoop, decodeLoop, hpos, transact_among]
    match transact s (eventAt source s.pos) with
    | (t, .nothing) => exact ih t out
    | (t, .emit v) => exact ih t (out ++ [v])
    | (t, .halt) => rfl
    | (t, .fault k off) => rfl

/-- The state between events of a run under eager agents: an event can be taken, and nothing is on offer. -/
structure State.Waiting (s : State) : Prop where
  inv : s.Inv
  eager : s.env = Env.eager
  out_empty : s.out.valid = false
  input : s.st = .fetch ∨ s.st = .operand

theorem State.Waiting.step {s : State} (h : s.Waiting) :
    step s = .next (shown (transact s s.readEvent)) := by
  have hstep := step_eq_transact h.inv (takesEvent_of_eager h.eager h.out_empty h.input)
  rwa [tick_of_eager h.eager] at hstep

/-- What a transaction step leaves of the surroundings. -/
theorem transact_keeps {s t : State} {ev : Event} {o : Output} (he : transact s ev = (t, o)) :
    t.out = s.out ∧ t.source = s.source ∧ t.delivered = s.delivered ∧ t.env = s.env := by
  have hsame := transact_among s s ev
  rw [State.among_self, he] at hsame
  have h : t = s.among t := congrArg Prod.fst hsame
  rw [h]
  exact ⟨rfl, rfl, rfl, rfl⟩

/-- Under eager agents an emission is delivered at the next edge. -/
theorem State.Waiting.run_emit {s t : State} {v : Instruction} (h : s.Waiting)
    (he : transact s s.readEvent = (t, .emit v)) : core.run 2 s = .next (t.emit v).deliver := by
  have hstep := h.step
  obtain ⟨_, _, _, henv⟩ := transact_keeps he
  rw [he] at hstep
  have heager : (t.emit v).env = Env.eager := henv.trans h.eager
  have hedge := edge_of_offer (s := t.emit v) (by rw [heager]; rfl) rfl
  rw [heager, tick_of_eager heager] at hedge
  rw [run_of_step 1 hstep]
  exact run_of_step 0 (step_of_moved hedge)

/-- Where `decodeLoop` ends, the machine under eager agents ends, with the same result. -/
theorem run_of_decodeLoop {fuel : Nat} {s : State} {r : List Instruction × StreamEnd × Nat} (h : s.Waiting)
    (hloop : decodeLoop s.source fuel s s.delivered = some r) :
    ∃ k t, core.run k s = .next t ∧ t.ended ∧ t.result = r := by
  induction fuel generalizing s with
  | zero => cases hloop
  | succ fuel ih =>
    have hstep := h.step
    obtain ⟨t, o, he⟩ : ∃ t o, transact s s.readEvent = (t, o) := ⟨_, _, rfl⟩
    obtain ⟨hout, hsource, hdelivered, henv⟩ := transact_keeps he
    have hanswer := transact_answeredIn h.input he
    have hevent : eventAt s.source s.pos = s.readEvent := rfl
    rw [decodeLoop, hevent, he] at hloop
    rw [he] at hstep
    have hinv := stepKeepsInv s _ h.inv hstep
    have hempty : t.out.valid = false := hout ▸ h.out_empty
    cases hanswer with
    | nothing hst =>
      have ht : t.Waiting := ⟨hinv, henv.trans h.eager, hempty, .inr hst⟩
      obtain ⟨k, u, hrun, hu⟩ := ih ht (by rw [hsource, hdelivered]; exact hloop)
      exact ⟨k + 1, u, (run_of_step k hstep).trans hrun, hu⟩
    | emit v hst =>
      have ht : (t.emit v).deliver.Waiting := ⟨hinv.deliver, henv.trans h.eager, rfl, .inl rfl⟩
      have hsame : (t.emit v).deliver = State.among (t.emit v).deliver t := by cases t; cases hst; rfl
      have hmore : (t.emit v).deliver.delivered = s.delivered ++ [v] := by simp [hdelivered]
      obtain ⟨k, u, hrun, hu⟩ := ih ht (by
        rw [hmore, hsame, decodeLoop_among]
        rw [← hsource] at hloop
        exact hloop)
      exact ⟨2 + k, u, (run_add k (h.run_emit he)).trans hrun, hu⟩
    | halt hst =>
      refine ⟨1, t, run_of_step 0 hstep, ⟨.inl hst, hempty⟩, ?_⟩
      rw [State.result, State.outcome, if_pos hst, hdelivered]
      exact Option.some.inj hloop
    | fault hst =>
      refine ⟨1, t, run_of_step 0 hstep, ⟨.inr hst, hempty⟩, ?_⟩
      have hnot : t.st ≠ .halted := by rw [hst]; decide
      rw [State.result, State.outcome, if_neg hnot, hdelivered]
      exact Option.some.inj hloop

theorem State.load_waiting (source : List Byte) : (State.load source Env.eager).Waiting :=
  ⟨State.load_inv source _, rfl, rfl, .inl rfl⟩

/-- Under eager agents every stream that `decodeStream` ends is delivered by the machine with the same result. -/
theorem run_of_decodeStream {source : List Byte} {r : List Instruction × StreamEnd × Nat}
    (h : decodeStream source = some r) :
    ∃ k t, core.run k (State.load source Env.eager) = .next t ∧ t.ended ∧ t.result = r := by
  refine run_of_decodeLoop (fuel := source.length + 1) (State.load_waiting source) ?_
  exact (decodeLoop_among source (State.load source Env.eager) _ State.reset []).trans h

/-! ### `decodeStream` on encodings -/

/-- From `s`, the loop of R97 reads `n` bytes, emits `v` after the last of them and is back in FETCH. -/
def EmitsAfter (source : List Byte) (n : Nat) (s : State) (v : Instruction) : Prop :=
  ∃ t, t.st = .fetch ∧ t.pos = s.pos + n ∧
    ∀ fuel out, decodeLoop source (fuel + n) s out = decodeLoop source fuel t (out ++ [v])

/-- The last byte of an instruction. -/
theorem EmitsAfter.of_emit {source : List Byte} {s t : State} {v : Instruction}
    (he : transact s (eventAt source s.pos) = (t, .emit v)) (hst : t.st = .fetch) (hpos : t.pos = s.pos + 1) :
    EmitsAfter source 1 s v :=
  ⟨t, hst, hpos, fun _ _ => by rw [decodeLoop, he]⟩

/-- A byte before the last. -/
theorem EmitsAfter.of_nothing {source : List Byte} {n : Nat} {s t : State} {v : Instruction}
    (he : transact s (eventAt source s.pos) = (t, .nothing)) (hpos : t.pos = s.pos + 1)
    (h : EmitsAfter source n t v) : EmitsAfter source (n + 1) s v := by
  obtain ⟨u, hst, hu, hloop⟩ := h
  refine ⟨u, hst, by omega, fun fuel out => ?_⟩
  rw [← Nat.add_assoc, decodeLoop, he]
  exact hloop fuel out

theorem eventAt_of_drop {source bs : List Byte} {pos : Nat} {b : Byte} (h : source.drop pos = b :: bs) :
    eventAt source pos = .byte b ∧ source.drop (pos + 1) = bs := by
  have hget : source[pos]? = some b := by rw [← List.head?_drop, h]; rfl
  exact ⟨by rw [eventAt, hget], by rw [← List.drop_drop, h]; rfl⟩

/-- The operand bytes still owed complete the extended form that the latched registers begin (R89, R91). -/
theorem emitsAfter_operand {source ds rest : List Byte} {s : State} {sel : BitVec 2} {v : Instruction}
    (hst : s.st = .operand) (hc : s.byteCount = operandCount sel) (hne : ds ≠ []) (hr : s.remaining.toNat = ds.length)
    (hbytes : source.drop s.pos = ds ++ rest)
    (hv : instructionOf (extInstr s.extOp sel (ds.foldl shiftIn s.acc)) = some v) :
    EmitsAfter source ds.length s v := by
  induction ds generalizing s with
  | nil => exact absurd rfl hne
  | cons d ds ih =>
    obtain ⟨hevent, hdrop⟩ := eventAt_of_drop hbytes
    cases ds with
    | nil =>
      have hlast : s.remaining = 1#3 := BitVec.eq_of_toNat_eq hr
      refine .of_emit (t := { s.takeOperand (shiftIn s.acc d) with st := .fetch }) ?_ rfl rfl
      rw [hevent, transact_operand_last d hst hlast, hc, operandCount_toNat]
      exact transactDispatch_emit (extendedFields_extInstr _ _ _) hv _ _
    | cons d' ds =>
      have hmore : s.remaining ≠ 1#3 := by
        intro e
        rw [e] at hr
        cases hr
      refine .of_nothing (t := s.takeOperand (shiftIn s.acc d)) ?_ rfl (ih hst hc (by simp) ?_ hdrop hv)
      · rw [hevent, transact_operand_more d hst hmore]
      · rw [State.takeOperand_remaining]
        simp only [List.length_cons] at hr ⊢
        bv_omega

/-- The bytes of a well-formed instruction are read, and what it stands for is emitted after the last. -/
theorem emitsAfter_encode {source rest : List Byte} {s : State} {i : Instr} {v : Instruction} (hst : s.st = .fetch)
    (hw : i.wellFormed = true) (hv : instructionOf i = some v) (hbytes : source.drop s.pos = encode i ++ rest) :
    EmitsAfter source (encode i).length s v := by
  cases h : extendedFields i with
  | none =>
    obtain ⟨b, hencode, hb⟩ := encode_base h
    rw [hencode] at hbytes ⊢
    obtain ⟨hevent, _⟩ := eventAt_of_drop hbytes
    refine .of_emit (t := { s.takeOpcode with st := .fetch }) ?_ rfl rfl
    rw [hevent, transact_base hst hb hv]
  | some fields =>
    obtain ⟨x, sel, raw⟩ := fields
    obtain ⟨b, ds, hencode, ho, rfl, rfl, hlen, rfl⟩ := encode_extended h hw
    rw [hencode] at hbytes ⊢
    obtain ⟨hevent, hdrop⟩ := eventAt_of_drop hbytes
    by_cases hl : lengthSelector b = 0#2
    · obtain rfl : ds = [] := List.length_eq_zero_iff.1 (hlen.trans ((operandBytes_eq_zero_iff _).2 hl))
      rw [hl] at h
      refine .of_emit (t := { s.latchEscape (extOpOf b) 0#2 with st := .fetch }) ?_ rfl rfl
      rw [hevent, transact_escape_alone hst ho hl]
      exact transactDispatch_emit h hv _ _
    · refine .of_nothing (t := s.awaitOperand (extOpOf b) (lengthSelector b)) ?_ rfl
        (emitsAfter_operand rfl rfl ?_ ?_ hdrop ?_)
      · rw [hevent, transact_escape hst ho hl]
      · exact fun e => hl ((operandBytes_eq_zero_iff _).1 (by rw [← hlen, e]; rfl))
      · exact (operandCount_toNat _).trans hlen.symm
      · rw [eq_extInstr h] at hv
        exact hv

/-- A stream of legal encodings, from any byte between two instructions on. -/
theorem decodeLoop_encodings {source : List Byte} {s : State} {is : List Instr} (hst : s.st = .fetch)
    (hlegal : ∀ i ∈ is, Legal i) (hbytes : source.drop s.pos = is.flatMap encode) (out : List Instruction) :
    decodeLoop source ((is.flatMap encode).length + 1) s out =
      some (out ++ is.filterMap instructionOf, .halted, s.pos + (is.flatMap encode).length) := by
  induction is generalizing s out with
  | nil =>
    have hevent : eventAt source s.pos = .eos := by
      rw [eventAt, List.getElem?_eq_none_iff.2 (List.drop_eq_nil_iff.1 hbytes)]
    simp only [List.flatMap_nil, List.length_nil, decodeLoop, hevent, transact_eos_fetch hst]
    simp
  | cons i is ih =>
    obtain ⟨hi, his⟩ := List.forall_mem_cons.1 hlegal
    obtain ⟨hw, hsome⟩ := hi
    obtain ⟨v, hv⟩ := Option.isSome_iff_exists.1 hsome
    rw [List.flatMap_cons] at hbytes
    obtain ⟨t, htst, htpos, hloop⟩ := emitsAfter_encode hst hw hv hbytes
    have hrest : source.drop t.pos = is.flatMap encode := by
      rw [htpos, ← List.drop_drop, hbytes, List.drop_left]
    have hfuel : (encode i ++ is.flatMap encode).length + 1 = (is.flatMap encode).length + 1 + (encode i).length := by
      rw [List.length_append]; omega
    rw [List.flatMap_cons, hfuel, hloop, ih htst his hrest, htpos, List.filterMap_cons_some hv, List.length_append,
      List.append_assoc, Nat.add_assoc]
    rfl

/-- R65: a stream of legal encodings decodes to what they stand for. -/
theorem decodeStream_encodings {is : List Instr} (hlegal : ∀ i ∈ is, Legal i) :
    decodeStream (is.flatMap encode) = some (is.filterMap instructionOf, .halted, (is.flatMap encode).length) := by
  have hpos : State.reset.pos + (is.flatMap encode).length = (is.flatMap encode).length := Nat.zero_add _
  rw [decodeStream, decodeLoop_encodings rfl hlegal rfl, List.nil_append, hpos]

/-! ### Streams of canonical encodings -/

theorem canonicalInstr_legal (v : Instruction) : Legal (canonicalInstr v) := by
  obtain ⟨hw, hv⟩ := canonicalInstr_standsFor v
  exact ⟨hw, by rw [hv]; rfl⟩

theorem flatMap_encode_canonicalInstr (vs : List Instruction) :
    (vs.map canonicalInstr).flatMap encode = vs.flatMap canonical := by
  simp [List.flatMap_map, encode_canonicalInstr]

theorem filterMap_instructionOf_canonicalInstr (vs : List Instruction) :
    (vs.map canonicalInstr).filterMap instructionOf = vs := by
  simp [List.filterMap_map, (canonicalInstr_standsFor _).2]

/-- Settles O47: `decodeStream` undoes the encoder, the machine under eager agents follows `decodeStream`, and a
canonical encoding is a legal one. -/
theorem streamRoundTrip : Obligations.StreamRoundTrip := by
  have hstream (is : List Instr) (hlegal : ∀ i ∈ is, Legal i) :
      decodeStream (is.flatMap encode) = some (is.filterMap instructionOf, .halted, (is.flatMap encode).length) ∧
      ∃ k t, core.run k (State.load (is.flatMap encode) Env.eager) = .next t ∧
        t.ended ∧ t.result = (is.filterMap instructionOf, .halted, (is.flatMap encode).length) :=
    ⟨decodeStream_encodings hlegal, run_of_decodeStream (decodeStream_encodings hlegal)⟩
  refine ⟨fun vs => ?_, hstream⟩
  have h := hstream (vs.map canonicalInstr) fun i hi => by
    obtain ⟨v, _, rfl⟩ := List.mem_map.1 hi
    exact canonicalInstr_legal v
  rwa [flatMap_encode_canonicalInstr, filterMap_instructionOf_canonicalInstr] at h

end Sys2Proof.Machine
end

section
/-! PROOFS. The BitReader family: the fields of a byte as shifts and masks, the signed immediate, and the length lookup
as the least power of two. -/

namespace Sys2Proof.Machine

/-! ### The length lookup -/

/-- The search of R73 finds the least exponent, `Nat.clog`, from any start at most it with tries enough to reach it. -/
theorem leastPowerFrom_eq_two_pow_clog {n fuel k : Nat} (hk : k ≤ Nat.clog 2 n) (hfuel : Nat.clog 2 n ≤ k + fuel) :
    leastPowerFrom n fuel k = 2 ^ Nat.clog 2 n := by
  induction fuel generalizing k with
  | zero => rw [leastPowerFrom, le_antisymm hk hfuel]
  | succ fuel ih =>
    rw [leastPowerFrom]
    split
    · next h => rw [le_antisymm hk (Nat.clog_le_of_le_pow h)]
    · next h =>
      have hlt : k < Nat.clog 2 n := (Nat.lt_clog_iff_pow_lt Nat.one_lt_two).2 (Nat.lt_of_not_le h)
      exact ih hlt (by omega)

/-- R73 for `n` other than 0: `n` tries are enough, since `n ≤ 2 ^ n`. -/
theorem nextPowerOfTwo_eq_two_pow_clog {n : Nat} (hn : n ≠ 0) : nextPowerOfTwo n = 2 ^ Nat.clog 2 n := by
  have htries : Nat.clog 2 n ≤ 0 + n := by
    rw [Nat.zero_add]
    exact Nat.clog_le_of_le_pow Nat.lt_two_pow_self.le
  rw [nextPowerOfTwo, if_neg hn, leastPowerFrom_eq_two_pow_clog (Nat.zero_le _) htries]

/-- Settles O11: the power is that of `Nat.clog`, the least exponent; the selectors' values are the length lookup's. -/
theorem nextPowerOfTwoLeast : Obligations.NextPowerOfTwoLeast := by
  refine ⟨operandBytes_zero, operandBytes_one, operandBytes_two, operandBytes_three, fun n hn => ?_⟩
  rw [nextPowerOfTwo_eq_two_pow_clog (Nat.one_le_iff_ne_zero.1 hn)]
  exact ⟨⟨_, rfl⟩, Nat.le_pow_clog Nat.one_lt_two n,
    fun j hj => Nat.pow_le_pow_right Nat.two_pos (Nat.clog_le_of_le_pow hj)⟩

/-! ### The fields of a byte -/

/-- A field of `len` bits is a shift and a mask of `len` ones. -/
theorem extractLsb'_toNat_eq_and {w : Nat} (x : BitVec w) (start len : Nat) :
    (x.extractLsb' start len).toNat = x.toNat >>> start &&& (2 ^ len - 1) := by
  rw [BitVec.extractLsb'_toNat, Nat.and_two_pow_sub_one_eq_mod]

/-- R67: the opcode is the top of the byte and needs no mask. -/
theorem opcode_toNat (b : Byte) : (opcode b).toNat = b.toNat >>> 6 := by
  have htop : b.toNat >>> 6 < 2 ^ 2 := by
    have hb : b.toNat < 2 ^ 8 := b.isLt
    rw [Nat.shiftRight_eq_div_pow]
    omega
  rw [opcode, BitVec.extractLsb'_toNat, Nat.mod_eq_of_lt htop]

/-- R71 masks before it shifts. -/
theorem lengthSelector_toNat (b : Byte) : (lengthSelector b).toNat = (b.toNat &&& 0x30) >>> 4 := by
  rw [Nat.shiftRight_and_distrib]
  exact extractLsb'_toNat_eq_and b 4 2

/-- Settles O9. -/
theorem fieldsOfByte : Obligations.FieldsOfByte := fun b =>
  ⟨opcode_toNat b, extractLsb'_toNat_eq_and b 0 6, lengthSelector_toNat b, extractLsb'_toNat_eq_and b 0 4,
    fun n => extractLsb'_toNat_eq_and b n.toNat 1⟩

/-! ### The signed immediate -/

/-- R69 by the codec: the two's-complement value of `b[5:0]`. -/
theorem signed6_eq_toInt (b : Byte) : signed6 b = (immediate b).toInt := toSigned_toNat (immediate b)

/-- The sign of the immediate is bit 5 of its byte. -/
theorem msb_immediate_eq_false_iff (b : Byte) : (immediate b).msb = false ↔ bit b 5#3 = 0#1 := by
  revert b; decide

/-- Settles O10: the two's-complement value of six bits, whose sign is bit 5. -/
theorem signed6Value : Obligations.Signed6Value := by
  intro b
  refine ⟨?_, ?_, ?_, int32_signedImmediate (immediate b)⟩ <;> rw [signed6_eq_toInt]
  · rw [BitVec.toInt_eq_msb_cond]
    by_cases h : bit b 5#3 = 0#1
    · rw [if_pos h, (msb_immediate_eq_false_iff b).2 h]; rfl
    · rw [if_neg h, Bool.eq_true_of_not_eq_false (mt (msb_immediate_eq_false_iff b).1 h)]; rfl
  · exact BitVec.le_toInt (immediate b)
  · exact Int.le_sub_one_of_lt (BitVec.toInt_lt (x := immediate b))

end Sys2Proof.Machine
end

section
/-! PROOFS. The TwosComplementCodec family: `toSigned` on a value of `L` bits is the integer of its vector, so R80 is
the library's account of `BitVec.toInt`. -/

namespace Sys2Proof.Machine

/-- A value that fits `L` bits is the vector of those bits, so the codec gives that vector's integer. -/
theorem toSigned_of_lt {u L : Nat} (hu : u < 2 ^ L) : toSigned u L = (BitVec.ofNatLT u hu).toInt :=
  toSigned_toNat (BitVec.ofNatLT u hu)

/-- R80's closed form: the sign bit takes `2^L` off. -/
theorem toSigned_eq_ite {u L : Nat} (hL : 1 ≤ L) (hu : u < 2 ^ L) :
    toSigned u L = if u < 2 ^ (L - 1) then (u : Int) else (u : Int) - 2 ^ L := by
  have hhalf : 2 * u < 2 ^ L ↔ u < 2 ^ (L - 1) := by rw [← mul_pow_sub_one (by omega) 2]; omega
  rw [toSigned_of_lt hu, BitVec.toInt_eq_toNat_cond, BitVec.toNat_ofNatLT, if_congr hhalf rfl rfl, Nat.cast_pow,
    Nat.cast_ofNat]

/-- The signed range of R80. -/
theorem toSigned_mem_range {u L : Nat} (hu : u < 2 ^ L) :
    -(2 : Int) ^ (L - 1) ≤ toSigned u L ∧ toSigned u L ≤ 2 ^ (L - 1) - 1 := by
  rw [toSigned_of_lt hu]
  exact ⟨BitVec.le_toInt _, Int.le_sub_one_of_lt BitVec.toInt_lt⟩

/-- R80's inverse after the codec: `mod 2^L` takes the signed value back to the bits. -/
theorem toSigned_emod {u L : Nat} (hu : u < 2 ^ L) : toSigned u L % 2 ^ L = (u : Int) := by
  have hcast : ((2 ^ L : Nat) : Int) = 2 ^ L := Nat.cast_pow 2 L
  rw [toSigned_of_lt hu, BitVec.toInt_eq_toNat_bmod, BitVec.toNat_ofNatLT, ← hcast, Int.bmod_emod]
  exact Int.emod_eq_of_lt (Int.natCast_nonneg u) (Int.ofNat_lt.2 hu)

/-- R80's inverse before the codec: `v mod 2^L` is the vector of `v`, which holds every `v` of the signed range. -/
theorem toSigned_toNat_emod {L : Nat} {v : Int} (hL : 1 ≤ L) (hlo : -(2 : Int) ^ (L - 1) ≤ v)
    (hhi : v ≤ 2 ^ (L - 1) - 1) : toSigned (v % 2 ^ L).toNat L = v := by
  have hbits : (v % 2 ^ L).toNat = (BitVec.ofInt L v).toNat := by
    rw [BitVec.toNat_ofInt, Nat.cast_pow, Nat.cast_ofNat]
  rw [hbits, toSigned_toNat, BitVec.toInt_ofInt_eq_self hL hlo (Int.lt_of_le_sub_one hhi)]

/-- Settles O14: the closed form, the range, and `mod 2^L` as the inverse on both sides. -/
theorem toSignedTwosComplement : Obligations.ToSignedTwosComplement := fun _ hL =>
  ⟨fun _ hu => toSigned_eq_ite hL hu,
    fun _ hu => ⟨(toSigned_mem_range hu).1, (toSigned_mem_range hu).2, toSigned_emod hu⟩,
    fun _ hlo hhi => toSigned_toNat_emod hL hlo hhi⟩

end Sys2Proof.Machine
end

section
/-! PROOFS. The decoder family, one edge: what the event at `pos` comes to by the state that takes it, what a meaning
leaves, and a truncated escape sequence. -/

namespace Sys2Proof.Machine

/-! ### The event at `pos`, by the state that takes it -/

theorem edge_of_fetch {s : State} {b : Byte} (ht : s.takesEvent) (hst : s.st = .fetch)
    (hp : s.source[s.pos]? = some b) : s.edge = s.tick.fetchByte b := by
  rw [edge_of_takesEvent ht, State.accept, readEvent_of_some (s := s.tick) hp]
  simp only [State.acceptByte, State.tick_st, hst]

theorem edge_of_operand {s : State} {d : Byte} (ht : s.takesEvent) (hst : s.st = .operand)
    (hp : s.source[s.pos]? = some d) : s.edge = s.tick.operandByte d := by
  rw [edge_of_takesEvent ht, State.accept, readEvent_of_some (s := s.tick) hp]
  simp only [State.acceptByte, State.tick_st, hst]

theorem edge_of_eos {s : State} (ht : s.takesEvent) (hp : s.source[s.pos]? = none) :
    s.edge = .moved s.tick.takeEos := by
  rw [edge_of_takesEvent ht, State.accept, readEvent_of_none (s := s.tick) hp]

theorem takeEos_of_fetch {s : State} (hst : s.st = .fetch) : s.takeEos = s.halt := by
  simp only [State.takeEos, hst]

theorem takeEos_of_operand {s : State} (hst : s.st = .operand) :
    s.takeEos = s.raiseFault .truncatedStream s.instStart := by
  simp only [State.takeEos, hst]

/-- An escape byte with operand bytes to come is latched (R87). -/
theorem fetchByte_escape {b : Byte} (ho : opcode b = 3#2) (hl : lengthSelector b ≠ 0#2) (s : State) :
    s.fetchByte b = .moved (s.awaitOperand (extOpOf b) (lengthSelector b)) := by
  simp only [State.fetchByte, (baseInstr_eq_none b).2 ho, if_neg hl]

/-- A byte that alone decodes is a complete instruction: a base byte (R88), or an escape byte with selector 0 (R92). -/
theorem fetchByte_of_decode {b : Byte} {i : Instr} (h : decode [b] = .ok (i, [])) (s : State) :
    s.fetchByte b = .run i s := by
  rcases decode_cons_cases b [] with ⟨j, hb, _, e⟩ | ⟨ds, rest, hnil, ho, hlen, _, e⟩ | ⟨_, _, e⟩
  · cases e.symm.trans h
    simp only [State.fetchByte, hb]
  · obtain ⟨rfl, rfl⟩ := List.append_eq_nil_iff.1 hnil.symm
    have hl : lengthSelector b = 0#2 := (operandBytes_eq_zero_iff _).1 hlen.symm
    cases e.symm.trans h
    simp only [State.fetchByte, (baseInstr_eq_none b).2 ho, hl, if_true, readBigEndian_nil]
  · cases e.symm.trans h

/-- The last operand byte completes the form that the latched registers begin (R91). -/
theorem operandByte_last {s : State} {sel : BitVec 2} (hr : s.remaining = 1#3) (hc : s.byteCount = operandCount sel)
    (hsel : sel ≠ 0#2) (d : Byte) : s.operandByte d = .run (extInstr s.extOp sel (shiftIn s.acc d)) s := by
  simp only [State.operandByte, if_pos hr, hc, selectorOf_operandCount, if_neg hsel]

theorem operandByte_more {s : State} (hr : s.remaining ≠ 1#3) (d : Byte) :
    s.operandByte d = .moved (s.takeOperand (shiftIn s.acc d)) :=
  if_neg hr

/-! ### One edge -/

/-- Settles O6: an edge that takes no event moves, and one that does is a transaction step. -/
theorem stepAlwaysNext : Obligations.StepAlwaysNext := by
  intro s h
  rcases edge_cases s with ⟨_, _, e⟩ | ⟨_, _, _, e⟩ | ⟨_, _, _, e⟩ | ⟨_, _, _, e⟩ | ⟨ht, _⟩
  iterate 4 exact ⟨_, step_of_moved e⟩
  exact ⟨_, step_eq_transact h ht⟩

/-- R33: HALTED and FAULTED are not ready for input. -/
theorem inReady_eq_false {s : State} (hst : s.st = .halted ∨ s.st = .faulted) : s.inReady = false := by
  rcases hst with e | e <;> simp [State.inReady, e]

/-- Settles O8: with the input closed an edge without reset can only deliver, and under `Inv` nothing is on offer. -/
theorem terminalAbsorbing : Obligations.TerminalAbsorbing := by
  intro s hst
  have hready := inReady_eq_false hst
  refine ⟨hready, fun hrst => ?_⟩
  cases hv : s.out.valid with
  | true =>
    have hfetch (h : s.Inv) : s.st = .fetch := h.out_fetch hv
    refine ⟨fun h => by simp [hfetch h] at hst, _, step_of_moved (edge_of_offer hrst hv), ?_⟩
    cases s.env.now.outReady with
    | true => simp [sameRegisters, State.deliver_emitted (s := s.tick) hv]
    | false => simp [sameRegisters]
  | false =>
    have hstep : step s = .next s.tick := step_of_moved (by simp [State.edge, hrst, hv, hready])
    exact ⟨fun _ => hstep, s.tick, hstep, by simp [sameRegisters]⟩

/-- Settles O33: a byte that alone decodes completes its instruction, and the last operand byte the latched one. -/
theorem stepRunsCompleted : Obligations.StepRunsCompleted := by
  intro s ht
  refine ⟨fun b i hst hp hdec => ?_, fun d sel hst hr hsel hc hp => ?_⟩
  · exact step_of_run ((edge_of_fetch ht hst hp).trans (fetchByte_of_decode hdec _))
  · exact step_of_run ((edge_of_operand ht hst hp).trans (operandByte_last (s := s.tick) hr hc hsel d))

/-- Settles O35. -/
theorem escapeLatched : Obligations.EscapeLatched := fun _ _ ht hst hp ho hl =>
  step_of_moved ((edge_of_fetch ht hst hp).trans (fetchByte_escape ho hl _))

/-- Settles O36. -/
theorem operandShifted : Obligations.OperandShifted := fun s d ht hst hp hr =>
  step_of_moved ((edge_of_operand ht hst hp).trans (operandByte_more (s := s.tick) hr d))

/-- Under `Inv` the stream is read up to its end where no byte is left (R35). -/
theorem State.Inv.pos_eq_length {s : State} (h : s.Inv) (hp : s.source[s.pos]? = none) : s.pos = s.source.length :=
  le_antisymm h.pos_le (List.getElem?_eq_none_iff.1 hp)

/-- Settles O37. -/
theorem endOfStreamHalts : Obligations.EndOfStreamHalts := by
  intro s ht hst hp
  have hedge := edge_of_eos ht hp
  rw [takeEos_of_fetch (s := s.tick) hst] at hedge
  exact ⟨step_of_moved hedge, fun h => ⟨h.pos_eq_length hp, h.no_error (by simp [hst])⟩⟩

/-- Settles O38. -/
theorem truncatedStreamFaults : Obligations.TruncatedStreamFaults := by
  intro s ht hst hp
  have hedge := edge_of_eos ht hp
  rw [takeEos_of_operand (s := s.tick) hst] at hedge
  exact ⟨step_of_moved hedge, fun h => h.pos_eq_length hp⟩

/-! ### Frames of the meanings -/

/-- Settles O31: a base form reads its byte as an opcode and emits, and neither touches what is named. -/
theorem baseFrame : Obligations.BaseFrame := by
  intro i s t hi hx
  obtain ⟨v, hv⟩ := Option.isSome_iff_exists.1 (instructionOf_base hi)
  rw [exec_eq, lastRead_of_base hi, hv] at hx
  obtain rfl := Host.Outcome.next.inj hx
  simp [sameSurroundings]

/-- A last operand byte leaves the latched fields and `inst_start` (R89). -/
theorem takeLast_latched (x : BitVec 4) {sel : BitVec 2} (hsel : sel ≠ 0#2) (raw : Word) (s : State) :
    (s.takeLast x sel raw).extOp = s.extOp ∧ (s.takeLast x sel raw).byteCount = s.byteCount ∧
      (s.takeLast x sel raw).instStart = s.instStart := by
  rw [State.takeLast, if_neg hsel]
  exact ⟨rfl, rfl, rfl⟩

/-- Settles O32: the frame of the last byte's reading, then of an emission or of a fault. -/
theorem extendedFrame : Obligations.ExtendedFrame := by
  intro i x sel raw s t hi hx
  obtain ⟨hsource, hdelivered, henv, hout, hkind, hoffset, _⟩ := lastRead_keeps i s
  have hlatched (hsel : sel ≠ 0#2) : (lastRead i s).extOp = s.extOp ∧ (lastRead i s).byteCount = s.byteCount ∧
      (lastRead i s).instStart = s.instStart := by
    rw [eq_extInstr hi, lastRead_extInstr]
    exact takeLast_latched x hsel raw s
  rw [exec_eq] at hx
  obtain rfl := Host.Outcome.next.inj hx
  cases instructionOf i with
  | some v => exact ⟨by simp [sameSurroundings, *], fun _ => ⟨hkind, hoffset⟩, nofun, hlatched⟩
  | none => exact ⟨by simp [sameSurroundings, *], nofun, fun _ => hout, hlatched⟩

/-! ### The instruction being read -/

theorem getElem?_of_drop {bs tail : List Byte} {pos : Nat} {b : Byte} (h : bs.drop pos = b :: tail) :
    bs[pos]? = some b ∧ bs.drop (pos + 1) = tail :=
  ⟨by rw [← List.head?_drop, h]; rfl, by rw [← List.drop_drop, h]; rfl⟩

/-- An instruction of one byte at `pos` decodes from that byte alone. -/
theorem decode_singleton_of_drop {bs rest : List Byte} {pos : Nat} {i : Instr}
    (hdec : decode (bs.drop pos) = .ok (i, rest)) (hlen : (encode i).length = 1) :
    ∃ b, bs[pos]? = some b ∧ decode [b] = .ok (i, []) := by
  obtain ⟨hw, hbytes⟩ := encodeDecode _ _ _ hdec
  obtain ⟨b, hb⟩ := List.length_eq_one_iff.1 hlen
  rw [hb] at hbytes
  refine ⟨b, (getElem?_of_drop hbytes.symm).1, ?_⟩
  rw [← hb, ← List.append_nil (encode i)]
  exact decodeEncode i [] hw

/-- R57: the length of a decoded instruction is the one its first byte gives. -/
theorem encode_length_of_decode {b : Byte} {bs rest : List Byte} {i : Instr} (hdec : decode (b :: bs) = .ok (i, rest)) :
    (encode i).length = instrLength b := by
  rcases decode_cons_cases b bs with ⟨j, hb, hl, e⟩ | ⟨ds, tail, rfl, ho, hlen, hl, e⟩ | ⟨_, _, e⟩
  · cases e.symm.trans hdec
    obtain ⟨_, _, hencode, _⟩ := baseInstr_eq_some hb
    rw [hencode, hl, List.length_singleton]
  · cases e.symm.trans hdec
    rw [(encode_extInstr_of_bytes ho hlen).1, hl, List.length_cons, Nat.add_comm]
  · cases e.symm.trans hdec

theorem eq_of_encode_eq {i j : Instr} (hi : i.wellFormed = true) (hj : j.wellFormed = true)
    (h : encode i = encode j) : i = j := by
  have hdec := decodeEncode i [] hi
  rw [h, decodeEncode j [] hj] at hdec
  cases hdec
  rfl

/-- In OPERAND, if the bytes from `inst_start` decode to an instruction that ends with the byte at `pos`, then one byte
is owed, and the instruction is the one that the latched registers and that byte make. -/
theorem State.Framed.completes {s : State} {i : Instr} {rest : List Byte} (hf : s.Framed) (h : s.Inv)
    (hst : s.st = .operand) (hdec : decode (s.source.drop s.instStart) = .ok (i, rest))
    (hend : s.instStart + (encode i).length = s.pos + 1) :
    ∃ d sel, s.remaining = 1#3 ∧ sel ≠ 0#2 ∧ s.byteCount = operandCount sel ∧ s.source[s.pos]? = some d ∧
      i = extInstr s.extOp sel (shiftIn s.acc d) := by
  obtain ⟨hw, hbytes⟩ := encodeDecode _ _ _ hdec
  obtain ⟨b, hb, ho, _, hc, _⟩ := hf hst
  obtain ⟨hstart, hget⟩ := List.getElem?_eq_some_iff.1 hb
  have hlt : s.pos < s.source.length := by
    have hlen := congrArg List.length hbytes
    rw [List.length_append, List.length_drop] at hlen
    omega
  have hp := List.getElem?_eq_getElem hlt
  have hr : s.remaining = 1#3 := by
    rw [List.drop_eq_getElem_cons hstart, hget] at hdec
    have hlen := encode_length_of_decode hdec
    have hpos := h.operand_pos hst
    rw [instrLength_of_escape ho] at hlen
    rw [hc, operandCount_toNat] at hpos
    exact BitVec.eq_of_toNat_eq (show s.remaining.toNat = 1 by omega)
  have hsel : lengthSelector b ≠ 0#2 := fun e => by
    rw [(operandCount_eq_zero_iff _).2 e] at hc
    simpa [hc] using h.operand_count hst
  obtain ⟨htake, hwf⟩ := hf.bytes_of_last h hst hp hr hc
  rw [← hend, List.take_add, ← hbytes, List.take_left] at htake
  exact ⟨_, _, hr, hsel, hc, hp, eq_of_encode_eq hw hwf (List.append_cancel_left htake)⟩

/-- Settles O34: in FETCH the instruction is the byte at `pos`, in OPERAND `Framed` says what has been read of it. -/
theorem stepRunsDecoded : Obligations.StepRunsDecoded := by
  intro s i rest h hf ht hdec hend
  obtain ⟨hfetch, hoperand⟩ := stepRunsCompleted s ht
  rcases (s.inReady_iff.1 ht.2.2).1 with hst | hst
  · rw [State.boundary_of_fetch hst] at hdec hend
    obtain ⟨b, hp, hone⟩ := decode_singleton_of_drop hdec (by omega)
    exact hfetch b i hst hp hone
  · rw [State.boundary_of_operand hst] at hdec hend
    obtain ⟨d, sel, hr, hsel, hc, hp, rfl⟩ := hf.completes h hst hdec hend
    exact hoperand d sel hst hr hsel hc hp

/-! ### A truncated escape sequence -/

/-- The registers after operand bytes that are not the last: `pos`, `acc` and `remaining` move on by them (R89). -/
def State.shiftedBy (ds : List Byte) (s : State) : State :=
  { s with
    pos := s.pos + ds.length, acc := ds.foldl shiftIn s.acc, remaining := s.remaining - BitVec.ofNat 3 ds.length }

theorem State.shiftedBy_cons (d : Byte) (ds : List Byte) (s : State) :
    s.shiftedBy (d :: ds) = (s.takeOperand (shiftIn s.acc d)).shiftedBy ds := by
  have hpos : s.pos + (d :: ds).length = s.pos + 1 + ds.length := by rw [List.length_cons]; omega
  have hr : s.remaining - BitVec.ofNat 3 (d :: ds).length = s.remaining - 1#3 - BitVec.ofNat 3 ds.length := by
    rw [List.length_cons, BitVec.sub_sub, ← BitVec.ofNat_add, Nat.add_comm]
  rw [State.shiftedBy, hpos, hr]
  rfl

/-- Under eager agents, operand bytes fewer than are owed are shifted in, one at each edge. -/
theorem run_shiftedBy {s : State} {ds : List Byte} (hst : s.st = .operand) (hv : s.out.valid = false)
    (he : s.env = Env.eager) (hds : s.source.drop s.pos = ds) (hr : ds.length < s.remaining.toNat) :
    core.run ds.length s = .next (s.shiftedBy ds) := by
  induction ds generalizing s with
  | nil => simp [State.shiftedBy]
  | cons d ds ih =>
    rw [List.length_cons] at hr
    obtain ⟨hp, htail⟩ := getElem?_of_drop hds
    have hmore : s.remaining ≠ 1#3 := fun e => by rw [e] at hr; simp at hr
    have hedge := edge_of_operand (takesEvent_of_eager he hv (.inr hst)) hst hp
    rw [tick_of_eager he, operandByte_more hmore] at hedge
    rw [List.length_cons, run_of_step _ (step_of_moved hedge), State.shiftedBy_cons]
    exact ih hst hv he htail (by rw [State.takeOperand_remaining]; bv_omega)

/-- If no byte follows them, the edge after them takes `EOS` (R90). -/
theorem run_truncated {s : State} {ds : List Byte} (hst : s.st = .operand) (hv : s.out.valid = false)
    (he : s.env = Env.eager) (hds : s.source.drop s.pos = ds) (hr : ds.length < s.remaining.toNat)
    (hend : s.pos + ds.length = s.source.length) :
    core.run (ds.length + 1) s = .next ((s.shiftedBy ds).raiseFault .truncatedStream s.instStart) := by
  have henv : (s.shiftedBy ds).env = Env.eager := he
  have hedge := edge_of_eos (s := s.shiftedBy ds) (takesEvent_of_eager henv hv (.inr hst))
    (List.getElem?_eq_none_iff.2 hend.ge)
  rw [tick_of_eager henv, takeEos_of_operand (s := s.shiftedBy ds) hst] at hedge
  exact (run_succ (run_shiftedBy hst hv he hds hr)).trans (step_of_moved hedge)

/-- Settles O46: the escape byte is latched, the operand bytes there are shifted in, and `EOS` finds one owed. -/
theorem truncatedInstruction : Obligations.TruncatedInstruction := by
  intro b ds s ho hlen hst hv he hbytes
  obtain ⟨hp, hds⟩ := getElem?_of_drop hbytes
  have hl : lengthSelector b ≠ 0#2 := fun e => by rw [e] at hlen; simp at hlen
  have hend : s.pos + 1 + ds.length = s.source.length := by
    have hcount := congrArg List.length hbytes
    rw [List.length_drop, List.length_cons] at hcount
    omega
  have hedge := edge_of_fetch (takesEvent_of_eager he hv (.inl hst)) hst hp
  rw [tick_of_eager he, fetchByte_escape ho hl] at hedge
  rw [run_of_step (ds.length + 1) (step_of_moved hedge), ← hend]
  exact run_truncated rfl hv he hds (hlen.trans_eq (operandCount_toNat _).symm) hend

end Sys2Proof.Machine
end

section
/-! PROOFS. The decoder family, whole runs: every run without reset computes `decodeStream`, takes at most one event for
each byte and `EOS`, and ends under fair agents. -/

namespace Sys2Proof.Machine

/-! ### An edge without reset, and the events left -/

/-- Everything an edge without reset can do: take an event, deliver, or only pass. -/
theorem step_noReset_cases {s t : State} (hrst : s.env.now.rst = none) (h : step s = .next t) :
    s.takesEvent ∨ (s.out.valid = true ∧ s.env.now.outReady = true ∧ t = s.tick.deliver) ∨
      (s.out.valid = true ∧ s.env.now.outReady = false ∧ t = s.tick) ∨
      (s.out.valid = false ∧ ¬ s.takesEvent ∧ t = s.tick) := by
  rcases edge_cases s with ⟨_, hr, _⟩ | ⟨_, hv, ho, e⟩ | ⟨_, hv, ho, e⟩ | ⟨_, hv, hn, e⟩ | ⟨ht, _⟩
  · simp [hrst] at hr
  · exact .inr (.inl ⟨hv, ho, Host.Outcome.next.inj (h.symm.trans (step_of_moved e))⟩)
  · exact .inr (.inr (.inl ⟨hv, ho, Host.Outcome.next.inj (h.symm.trans (step_of_moved e))⟩))
  · exact .inr (.inr (.inr ⟨hv, hn, Host.Outcome.next.inj (h.symm.trans (step_of_moved e))⟩))
  · exact .inl ht

/-- A taken event is the byte at `pos`, or it ends the decoding. -/
theorem step_of_takesEvent {s t : State} (ht : s.takesEvent) (h : step s = .next t) :
    t.source = s.source ∧ ((t.pos = s.pos + 1 ∧ s.pos < s.source.length) ∨ t.st = .halted ∨ t.st = .faulted) := by
  have hv := ht.out_empty
  rcases step_cases h with ⟨_, hr, _⟩ | ⟨_, hvalid, _⟩ | ⟨_, hn, _⟩ | ⟨_, _, _, rfl⟩ | ⟨_, _, _, rfl⟩ |
    ⟨_, _, _, hp, _, _, rfl⟩ | ⟨_, _, _, hp, _, rfl⟩ | ⟨_, _, _, _, hp, _, _, _, hx⟩ | ⟨_, _, _, _, hp, _, _, _, hx⟩
  · simp [ht.1] at hr
  · simp [hv] at hvalid
  · exact absurd ht hn
  · exact ⟨rfl, .inr (.inl rfl)⟩
  · exact ⟨rfl, .inr (.inr rfl)⟩
  iterate 2 exact ⟨rfl, .inl ⟨rfl, pos_lt_of_byte hp⟩⟩
  all_goals
    obtain ⟨hsource, hpos⟩ := exec_source_pos hx
    exact ⟨hsource, .inl ⟨hpos, pos_lt_of_byte hp⟩⟩

/-- The events still to be taken at most: the bytes not yet read, and `EOS`; none in HALTED and FAULTED. -/
def State.eventsLeft (s : State) : Nat :=
  if s.st = .fetch ∨ s.st = .operand then s.source.length - s.pos + 1 else 0

theorem State.eventsLeft_of_input {s : State} (h : s.st = .fetch ∨ s.st = .operand) :
    s.eventsLeft = s.source.length - s.pos + 1 := if_pos h

theorem State.eventsLeft_load (source : List Byte) (env : Env) :
    (State.load source env).eventsLeft = source.length + 1 := rfl

/-- A taken event is one of those left, and the only one gone where the decoding goes on. -/
theorem eventsLeft_of_takesEvent {s t : State} (ht : s.takesEvent) (h : step s = .next t) :
    t.eventsLeft + 1 ≤ s.eventsLeft ∧ (t.st = .fetch ∨ t.st = .operand → t.eventsLeft + 1 = s.eventsLeft) := by
  have hs := State.eventsLeft_of_input (s.inReady_iff.1 ht.2.2).1
  by_cases hin : t.st = .fetch ∨ t.st = .operand
  · obtain ⟨hsource, ⟨hpos, hlt⟩ | hend | hend⟩ := step_of_takesEvent ht h
    · rw [State.eventsLeft_of_input hin, hs, hsource, hpos]
      omega
    · simp [hend] at hin
    · simp [hend] at hin
  · rw [State.eventsLeft, if_neg hin, hs]
    exact ⟨by omega, fun h => absurd h hin⟩

/-! ### What `decodeStream` would still give -/

/-- The result of the spec's loop, taken up where the block stands: with the Instructions emitted so far, for as many
steps as there are events left. -/
def State.decodeRest (s : State) : Option (List Instruction × StreamEnd × Nat) :=
  if s.st = .fetch ∨ s.st = .operand then decodeLoop s.source s.eventsLeft s s.emitted
  else some (s.emitted, s.outcome, s.pos)

theorem State.decodeRest_of_input {s : State} (h : s.st = .fetch ∨ s.st = .operand) :
    s.decodeRest = decodeLoop s.source s.eventsLeft s s.emitted := if_pos h

theorem State.decodeRest_of_terminal {s : State} (h : s.st = .halted ∨ s.st = .faulted) :
    s.decodeRest = some (s.emitted, s.outcome, s.pos) :=
  if_neg (by rcases h with e | e <;> simp [e])

theorem State.decodeRest_load (source : List Byte) (env : Env) :
    (State.load source env).decodeRest = decodeStream source :=
  decodeLoop_among source (State.load source env) (source.length + 1) State.reset []

theorem State.emitted_of_empty {s : State} (hv : s.out.valid = false) : s.emitted = s.delivered := by
  simp [State.emitted, OutReg.offered, hv]

theorem State.decodeRest_of_ended {s : State} (h : s.ended) : s.decodeRest = some s.result := by
  obtain ⟨hst, hv⟩ := h
  rw [State.decodeRest_of_terminal hst, State.emitted_of_empty hv, State.result]

/-- Of the surroundings, only the stream and the emitted Instructions count. -/
theorem decodeRest_among {m s : State} (hsource : m.source = s.source) (hemitted : (m.among s).emitted = s.emitted) :
    (m.among s).decodeRest = s.decodeRest := by
  have hloop : decodeLoop m.source (m.among s).eventsLeft (m.among s) s.emitted =
      decodeLoop s.source s.eventsLeft s s.emitted := by
    have hleft : (m.among s).eventsLeft = s.eventsLeft := by rw [State.eventsLeft, State.eventsLeft, ← hsource]; rfl
    rw [decodeLoop_among, hleft, hsource]
  rw [State.decodeRest, State.decodeRest, hemitted]
  exact if_congr Iff.rfl hloop rfl

theorem State.decodeRest_tick (s : State) : s.tick.decodeRest = s.decodeRest :=
  decodeRest_among (m := s.tick) (s := s) rfl rfl

/-- A taken event is one turn of the loop. -/
theorem decodeRest_of_takesEvent {s t : State} (h : s.Inv) (ht : s.takesEvent) (hstep : step s = .next t) :
    t.decodeRest = s.decodeRest := by
  have hin : s.tick.st = .fetch ∨ s.tick.st = .operand := (s.inReady_iff.1 ht.2.2).1
  obtain ⟨_, hgoesOn⟩ := eventsLeft_of_takesEvent ht hstep
  obtain ⟨n, hn⟩ : ∃ n, s.tick.eventsLeft = n + 1 := ⟨_, State.eventsLeft_of_input hin⟩
  obtain ⟨u, o, he⟩ : ∃ u o, transact s.tick s.tick.readEvent = (u, o) := ⟨_, _, rfl⟩
  obtain ⟨hout, hsource, hdelivered, _⟩ := transact_keeps he
  have hemitted : u.emitted = s.tick.emitted := by rw [State.emitted, hout, hdelivered]; rfl
  have hempty : u.out.valid = false := hout ▸ ht.out_empty
  have hanswer := transact_answeredIn hin he
  have hevent : eventAt s.tick.source s.tick.pos = s.tick.readEvent := rfl
  rw [step_eq_transact h ht, he] at hstep
  obtain rfl := Host.Outcome.next.inj hstep
  rw [← s.decodeRest_tick, State.decodeRest_of_input hin, hn, decodeLoop, hevent, he]
  cases hanswer with
  | nothing hst =>
    have hleft : u.eventsLeft = n := Nat.succ.inj ((hgoesOn (.inr hst)).trans hn)
    exact (State.decodeRest_of_input (.inr hst)).trans (by rw [hleft, hsource, hemitted])
  | emit v hst =>
    have hleft : (u.emit v).eventsLeft = n := Nat.succ.inj ((hgoesOn (.inl rfl)).trans hn)
    have hsame : u.emit v = (u.emit v).among u := by cases u; cases hst; rfl
    have hloop : decodeLoop u.source n (u.emit v) = decodeLoop u.source n u := by
      rw [hsame]; exact funext fun out => decodeLoop_among u.source _ n u out
    refine (State.decodeRest_of_input (s := u.emit v) (.inl rfl)).trans ?_
    rw [hleft, State.emit_emitted v hempty, State.emit_source, hloop, hsource, hemitted]
  | halt hst =>
    refine (State.decodeRest_of_terminal (.inl hst)).trans ?_
    rw [hemitted, State.outcome, if_pos hst]
  | fault hst =>
    refine (State.decodeRest_of_terminal (.inr hst)).trans ?_
    rw [hemitted, State.outcome, if_neg (by simp [hst])]

theorem decodeRest_step {s t : State} (h : s.Inv) (hrst : s.env.now.rst = none) (hstep : step s = .next t) :
    t.decodeRest = s.decodeRest := by
  rcases step_noReset_cases hrst hstep with ht | ⟨hv, _, rfl⟩ | ⟨_, _, rfl⟩ | ⟨_, _, rfl⟩
  · exact decodeRest_of_takesEvent h ht hstep
  · exact decodeRest_among (m := s.tick.deliver) (s := s) rfl (State.deliver_emitted (s := s.tick) hv)
  · exact s.decodeRest_tick
  · exact s.decodeRest_tick

theorem noReset_step {s t : State} (h : s.env.noReset) (hstep : step s = .next t) : t.env.noReset := by
  rw [step_env hstep]
  exact Env.noReset_later h

theorem decodeRest_run {k : Nat} {s t : State} (h : s.Inv) (hrst : s.env.noReset) (hrun : core.run k s = .next t) :
    t.decodeRest = s.decodeRest := by
  induction k generalizing s with
  | zero => cases hrun; rfl
  | succ k ih =>
    obtain ⟨u, hstep, hrest⟩ := step_of_run_succ hrun
    calc t.decodeRest = u.decodeRest := ih (stepKeepsInv s u h hstep) (noReset_step hrst hstep) hrest
      _ = s.decodeRest := decodeRest_step h (Env.noReset_now hrst) hstep

/-- Settles O48: what `decodeStream` would still give is the same all along the run, and is the result where it ends. -/
theorem runIsDecodeStream : Obligations.RunIsDecodeStream := by
  intro source env k t hrst hrun hended
  calc decodeStream source = (State.load source env).decodeRest := (State.decodeRest_load source env).symm
    _ = t.decodeRest := (decodeRest_run (State.load_inv source env) hrst hrun).symm
    _ = some t.result := State.decodeRest_of_ended hended

/-! ### Bounds on events and on edges -/

/-- No run without reset takes more events than are left. -/
theorem eventsTaken_le_eventsLeft {s : State} (h : s.Inv) (hrst : s.env.noReset) (k : Nat) :
    eventsTaken k s ≤ s.eventsLeft := by
  induction k generalizing s with
  | zero => exact Nat.zero_le _
  | succ k ih =>
    obtain ⟨t, hstep⟩ := stepAlwaysNext s h
    have hnext := ih (stepKeepsInv s t h hstep) (noReset_step hrst hstep)
    by_cases ht : s.takesEvent
    · rw [eventsTaken_of_takes k hstep ht]
      have hleft := (eventsLeft_of_takesEvent ht hstep).1
      omega
    · rw [eventsTaken_of_not_takes k hstep ht]
      rcases step_noReset_cases (Env.noReset_now hrst) hstep with ht' | ⟨_, _, rfl⟩ | ⟨_, _, rfl⟩ | ⟨_, _, rfl⟩
      · exact absurd ht' ht
      all_goals exact hnext

/-- Agents that are fair once the listed edges are over (log entry 12), and never reset. -/
structure Env.Fair (e : Env) : Prop where
  noReset : e.noReset
  presents : e.rest.inValid = true
  takes : e.rest.outReady = true

theorem Env.Fair.later {e : Env} (h : e.Fair) : e.later.Fair := ⟨Env.noReset_later h.noReset, h.presents, h.takes⟩

/-- The edges to the end of a run at most: the listed ones, two for each byte, one for `EOS`, one for the Instruction on
offer. -/
def State.edgesLeft (s : State) : Nat := s.env.queue.length + (2 * s.eventsLeft + s.out.valid.toNat - 1)

theorem State.eventsLeft_tick (s : State) : s.tick.eventsLeft = s.eventsLeft := rfl

/-- Past the listed edges, a run that has not ended and has nothing on offer takes an event. -/
theorem takesEvent_of_fair {s : State} (hfair : s.env.Fair) (hnow : s.env.now = s.env.rest) (hend : ¬ s.ended)
    (hv : s.out.valid = false) : s.takesEvent := by
  refine ⟨hnow ▸ hfair.noReset.2, hnow ▸ hfair.presents, s.inReady_iff.2 ⟨?_, hv⟩⟩
  cases hst : s.st with
  | fetch => exact .inl rfl
  | operand => exact .inr rfl
  | halted => exact absurd ⟨.inl hst, hv⟩ hend
  | faulted => exact absurd ⟨.inr hst, hv⟩ hend

/-- Under fair agents an edge of a run that has not ended brings the end nearer: where no edge is listed any more, it
delivers or takes an event. -/
theorem edgesLeft_step {s t : State} (h : s.Inv) (hfair : s.env.Fair) (hend : ¬ s.ended) (hstep : step s = .next t) :
    t.edgesLeft + 1 ≤ s.edgesLeft := by
  have hqueue : t.env.queue.length = s.env.queue.length - 1 := by
    rw [step_env hstep]; exact List.length_tail
  have hnow (hlisted : s.env.queue.length = 0) : s.env.now = s.env.rest := by
    rw [Env.now, List.length_eq_zero_iff.1 hlisted]; rfl
  have hvalid := Bool.toNat_le t.out.valid
  unfold State.edgesLeft
  rcases step_noReset_cases (Env.noReset_now hfair.noReset) hstep with ht | ⟨hv, _, rfl⟩ | ⟨_, ho, rfl⟩ | ⟨hv, hn, rfl⟩
  · have hleft := (eventsLeft_of_takesEvent ht hstep).1
    rw [ht.out_empty, Bool.toNat_false]
    omega
  · have hleft : s.eventsLeft = s.source.length - s.pos + 1 := State.eventsLeft_of_input (.inl (h.out_fetch hv))
    have hsame : s.tick.deliver.eventsLeft = s.eventsLeft := rfl
    have hempty : s.tick.deliver.out.valid.toNat = 0 := rfl
    rw [hv, Bool.toNat_true]
    omega
  · have hlisted : s.env.queue.length ≠ 0 := fun e => by simp [hnow e, hfair.takes] at ho
    rw [s.eventsLeft_tick, State.tick_out]
    omega
  · have hlisted : s.env.queue.length ≠ 0 := fun e => hn (takesEvent_of_fair hfair (hnow e) hend hv)
    rw [s.eventsLeft_tick, State.tick_out]
    omega

/-- Under fair agents every run ends within the edges left. -/
theorem run_ends {s : State} (h : s.Inv) (hfair : s.env.Fair) :
    ∃ k t, k ≤ s.edgesLeft ∧ core.run k s = .next t ∧ t.ended := by
  induction hn : s.edgesLeft using Nat.strong_induction_on generalizing s with
  | _ n ih =>
    by_cases hend : s.ended
    · exact ⟨0, s, Nat.zero_le _, rfl, hend⟩
    · obtain ⟨t, hstep⟩ := stepAlwaysNext s h
      have hless := edgesLeft_step h hfair hend hstep
      have hlater : t.env.Fair := by rw [step_env hstep]; exact hfair.later
      obtain ⟨k, u, hk, hrun, hu⟩ := ih t.edgesLeft (by omega) (stepKeepsInv s t h hstep) hlater rfl
      exact ⟨k + 1, u, by omega, (run_of_step k hstep).trans hrun, hu⟩

theorem State.edgesLeft_load (source : List Byte) (env : Env) :
    (State.load source env).edgesLeft = env.queue.length + 2 * source.length + 1 := by
  rw [State.edgesLeft, State.eventsLeft_load]
  show env.queue.length + (2 * (source.length + 1) + 0 - 1) = _
  omega

/-- Settles O49: both bounds are what is left, of edges and of events, at the start of the run. -/
theorem everyStreamEnds : Obligations.EveryStreamEnds := by
  refine ⟨fun source env hrst hi ho => ?_, fun source env k hrst => ?_⟩
  · rw [← State.edgesLeft_load source env]
    exact run_ends (State.load_inv source env) ⟨hrst, hi, ho⟩
  · exact eventsTaken_le_eventsLeft (State.load_inv source env) hrst k

end Sys2Proof.Machine
end

section
/-! PROOFS. The decoder family, how a stream ends: an ended run leaves the rest of the stream refused as R98 says, and
no stream can be divided in two such ways. -/

namespace Sys2Proof.Machine

/-! ### The end of a stream -/

/-- How a stream ends whose legal instructions end at `start`, by the bytes from there on: with no byte left, with an
escape sequence cut off, or with a complete illegal one. The last two arguments are the outcome and the final `pos`. -/
inductive EndsAs (start : Nat) : List Byte → StreamEnd → Nat → Prop
  | halted : EndsAs start [] .halted start
  | truncated {b : Byte} {ds : List Byte} (ho : opcode b = 3#2) (hlen : ds.length < operandBytes (lengthSelector b)) :
      EndsAs start (b :: ds) (.faulted .truncatedStream start) (start + (ds.length + 1))
  | unrecognized {j : Instr} {rest : List Byte} (hw : j.wellFormed = true) (hv : instructionOf j = none) :
      EndsAs start (encode j ++ rest) (.faulted .unrecognizedExtendedOpcode start) (start + (encode j).length)

/-- A stream divided into legal encodings, which stand for `out`, and an end. -/
def FramedAs (source : List Byte) (out : List Instruction) (e : StreamEnd) (p : Nat) : Prop :=
  ∃ is : List Instr, (∀ i ∈ is, Legal i) ∧ out = is.filterMap instructionOf ∧
    ∃ tail, source = is.flatMap encode ++ tail ∧ EndsAs (is.flatMap encode).length tail e p

/-! ### No stream is divided in two ways -/

/-- No legal instruction begins here. -/
def NoLegal (bs : List Byte) : Prop := ∀ i rest, decode bs = .ok (i, rest) → instructionOf i = none

theorem NoLegal.ne_encode {i : Instr} {bs rest : List Byte} (h : NoLegal bs) (hi : Legal i) :
    bs ≠ encode i ++ rest := by
  rintro rfl
  have hnone := h i rest (decodeEncode i rest hi.1)
  simpa [hnone] using hi.2

/-- The outcome and the final `pos`, from what the decoder says of the bytes at `start`. -/
def endOf (start : Nat) (tail : List Byte) : StreamEnd × Nat :=
  match decode tail with
  | .error .endOfStream => (.halted, start)
  | .error .truncatedOperand => (.faulted .truncatedStream start, start + tail.length)
  | .ok (i, _) => (.faulted .unrecognizedExtendedOpcode start, start + (encode i).length)

theorem EndsAs.noLegal_and_endOf {start p : Nat} {tail : List Byte} {e : StreamEnd} (h : EndsAs start tail e p) :
    NoLegal tail ∧ endOf start tail = (e, p) := by
  cases h with
  | halted => exact ⟨nofun, rfl⟩
  | truncated ho hlen =>
    have hdec := decode_truncated ho hlen
    refine ⟨fun i rest h => ?_, by simp only [endOf, hdec, List.length_cons]⟩
    cases hdec.symm.trans h
  | @unrecognized j rest hw hv =>
    have hdec := decodeEncode j rest hw
    refine ⟨fun i tail h => ?_, by simp only [endOf, hdec]⟩
    cases hdec.symm.trans h
    exact hv

/-- Legal encodings followed by bytes that begin with none can be taken apart in one way. -/
theorem flatMap_encode_append_inj {is js : List Instr} {tail rest : List Byte} (his : ∀ i ∈ is, Legal i)
    (hjs : ∀ j ∈ js, Legal j) (ht : NoLegal tail) (hr : NoLegal rest)
    (h : is.flatMap encode ++ tail = js.flatMap encode ++ rest) : is = js ∧ tail = rest := by
  induction is generalizing js with
  | nil =>
    cases js with
    | nil => exact ⟨rfl, h⟩
    | cons j js =>
      rw [List.flatMap_cons, List.append_assoc] at h
      exact absurd h (ht.ne_encode (List.forall_mem_cons.1 hjs).1)
  | cons i is ih =>
    obtain ⟨hi, hrest⟩ := List.forall_mem_cons.1 his
    cases js with
    | nil =>
      rw [List.flatMap_cons, List.append_assoc] at h
      exact absurd h.symm (hr.ne_encode hi)
    | cons j js =>
      obtain ⟨hj, hrest'⟩ := List.forall_mem_cons.1 hjs
      rw [List.flatMap_cons, List.flatMap_cons, List.append_assoc, List.append_assoc] at h
      have hdec := decodeEncode i (is.flatMap encode ++ tail) hi.1
      rw [h, decodeEncode j _ hj.1] at hdec
      obtain ⟨rfl, hmore⟩ := Prod.mk.inj (Except.ok.inj hdec)
      obtain ⟨rfl, htail⟩ := ih hrest hrest' hmore.symm
      exact ⟨rfl, htail⟩

theorem FramedAs.unique {source : List Byte} {out out' : List Instruction} {e e' : StreamEnd} {p p' : Nat}
    (h : FramedAs source out e p) (h' : FramedAs source out' e' p') : (out, e, p) = (out', e', p') := by
  obtain ⟨is, his, rfl, tail, hbytes, hend⟩ := h
  obtain ⟨js, hjs, rfl, rest, hbytes', hend'⟩ := h'
  obtain ⟨hnone, hof⟩ := hend.noLegal_and_endOf
  obtain ⟨hnone', hof'⟩ := hend'.noLegal_and_endOf
  obtain ⟨rfl, rfl⟩ := flatMap_encode_append_inj his hjs hnone hnone' (hbytes.symm.trans hbytes')
  rw [← hof, hof']

/-! ### Where the machine ends -/

/-- In HALTED and FAULTED the stream ends, at the boundary, as the block reports. -/
def State.Closed (s : State) : Prop :=
  s.st = .halted ∨ s.st = .faulted → EndsAs s.boundary (s.source.drop s.boundary) s.outcome s.pos

theorem State.closed_of_input {s : State} (h : s.st = .fetch ∨ s.st = .operand) : s.Closed := fun hst => by
  rcases h with e | e <;> simp [e] at hst

theorem State.Inv.boundary_le {s : State} (h : s.Inv) : s.boundary ≤ s.source.length := by
  have hstart := h.start_le_pos.trans h.pos_le
  unfold State.boundary
  cases s.st with
  | fetch | halted => exact h.pos_le
  | operand | faulted => exact hstart

/-- R86: in FETCH the boundary is `pos`. -/
theorem State.halt_closed {s : State} (h : s.Inv) (hp : s.source[s.pos]? = none) : s.halt.Closed := fun _ => by
  have hnil : s.source.drop s.pos = [] := List.drop_eq_nil_iff.2 (h.pos_eq_length hp).ge
  show EndsAs s.pos (s.source.drop s.pos) .halted s.pos
  rw [hnil]
  exact .halted

/-- R90: what has been read since `inst_start` is an escape byte and fewer operand bytes than it asks for. -/
theorem State.Framed.truncate_closed {s : State} (hf : s.Framed) (h : s.Inv) (hst : s.st = .operand)
    (hp : s.source[s.pos]? = none) : (s.raiseFault .truncatedStream s.instStart).Closed := fun _ => by
  obtain ⟨b, hb, ho, _, hc, _⟩ := hf hst
  obtain ⟨hlt, hget⟩ := List.getElem?_eq_some_iff.1 hb
  have hend := h.pos_eq_length hp
  have howed := (h.operand_remaining hst).1
  have hpos := h.operand_pos hst
  rw [hc, operandCount_toNat] at hpos
  have hlen : (s.source.drop (s.instStart + 1)).length < operandBytes (lengthSelector b) := by
    rw [List.length_drop]; omega
  have hlast : s.pos = s.instStart + ((s.source.drop (s.instStart + 1)).length + 1) := by
    rw [List.length_drop]; omega
  show EndsAs s.instStart (s.source.drop s.instStart) (.faulted .truncatedStream s.instStart) s.pos
  rw [List.drop_eq_getElem_cons hlt, hget, hlast]
  exact .truncated ho hlen

/-- R112: a meaning that faults has read its whole instruction, and `inst_start` is where that begins. -/
theorem exec_closed {i : Instr} {s t : State} (hx : exec i s = .next t) (h : s.Inv) (hlt : s.pos < s.source.length)
    (hw : i.wellFormed = true) (hbytes : s.source.take (s.pos + 1) = s.source.take s.boundary ++ encode i)
    (hstart : (lastRead i s).instStart = s.boundary) : t.Closed := by
  obtain ⟨hsource, _, _, _, _, _, hpos⟩ := lastRead_keeps i s
  rw [exec_eq] at hx
  obtain rfl := Host.Outcome.next.inj hx
  cases hv : instructionOf i with
  | some v => exact State.closed_of_input (.inl rfl)
  | none =>
    intro _
    have hlen : s.pos + 1 = s.boundary + (encode i).length := by
      have hcount := congrArg List.length hbytes
      rwa [List.length_append, List.length_take_of_le hlt, List.length_take_of_le h.boundary_le] at hcount
    have hdrop : s.source.drop s.boundary = encode i ++ s.source.drop (s.pos + 1) := by
      refine List.append_cancel_left (as := s.source.take s.boundary) ?_
      rw [← List.append_assoc, ← hbytes, List.take_append_drop, List.take_append_drop]
    show EndsAs (lastRead i s).instStart ((lastRead i s).source.drop (lastRead i s).instStart)
      (.faulted .unrecognizedExtendedOpcode (lastRead i s).instStart) (lastRead i s).pos
    rw [hstart, hsource, hpos, hdrop, hlen]
    exact .unrecognized hw hv

theorem step_closed {s t : State} (h : s.Inv) (hf : s.Framed) (hc : s.Closed) (hstep : step s = .next t) :
    t.Closed := by
  rcases step_cases hstep with ⟨stream, _, rfl⟩ | ⟨_, _, _, rfl⟩ | ⟨_, _, rfl⟩ | ⟨_, _, hp, rfl⟩ | ⟨_, hst, hp, rfl⟩ |
    ⟨_, _, _, _, _, _, rfl⟩ | ⟨_, _, hst, _, _, rfl⟩ | ⟨b, i, _, hst, hp, hencode, hw, hi, hx⟩ |
    ⟨d, sel, _, hst, hp, hr, hcount, hsel, hx⟩
  · exact State.closed_of_input (.inl rfl)
  · exact hc
  · exact hc
  · exact State.halt_closed h.tick hp
  · exact State.Framed.truncate_closed (s := s.tick) hf h.tick hst hp
  · exact State.closed_of_input (.inr rfl)
  · exact State.closed_of_input (.inr hst)
  · have hb : s.tick.boundary = s.pos := State.boundary_of_fetch hst
    refine exec_closed hx h.tick (pos_lt_of_byte hp) hw ?_ ((lastRead_instStart_of_fetch hi).trans hb.symm)
    rw [hb, hencode, State.tick_source, State.tick_pos, List.take_add_one, hp, Option.toList_some]
  · have hb : s.tick.boundary = s.instStart := State.boundary_of_operand hst
    obtain ⟨hbytes, hw⟩ := State.Framed.bytes_of_last (s := s.tick) hf h.tick hst hp hr hcount
    refine exec_closed hx h.tick (pos_lt_of_byte hp) hw ?_
      ((lastRead_instStart_of_operand s.tick _ hsel _).trans hb.symm)
    rw [hb]
    exact hbytes

/-- What holds all along a run of a stream without reset. -/
structure State.OnRun (source : List Byte) (s : State) : Prop where
  inv : s.Inv
  framed : s.Framed
  decoded : s.Decoded
  closed : s.Closed
  noReset : s.env.noReset
  source_eq : s.source = source

theorem State.load_onRun {source : List Byte} {env : Env} (hrst : env.noReset) :
    (State.load source env).OnRun source :=
  ⟨State.load_inv source env, State.load_framed source env, State.load_decoded source env,
    State.closed_of_input (.inl rfl), hrst, rfl⟩

theorem State.OnRun.step {source : List Byte} {s t : State} (h : s.OnRun source) (hstep : step s = .next t) :
    t.OnRun source := by
  obtain ⟨hinv, hframed, hdecoded, hclosed, hrst, hsource⟩ := h
  exact ⟨stepKeepsInv s t hinv hstep, stepKeepsFramed s t hinv hframed hstep,
    stepKeepsDecoded s t hinv hframed hdecoded hstep, step_closed hinv hframed hclosed hstep, noReset_step hrst hstep,
    (forwardOnly s t hinv (Env.noReset_now hrst) hstep).1.trans hsource⟩

/-- An ended run has divided its stream. -/
theorem State.OnRun.framedAs {source : List Byte} {s : State} (h : s.OnRun source) (hend : s.ended) :
    FramedAs source s.delivered s.outcome s.pos := by
  obtain ⟨hst, hv⟩ := hend
  obtain ⟨hinv, _, ⟨is, hlegal, hbytes, hemitted⟩, hclosed, _, rfl⟩ := h
  have hlen : (is.flatMap encode).length = s.boundary := by
    rw [← hbytes, List.length_take_of_le hinv.boundary_le]
  refine ⟨is, hlegal, (hemitted.trans (State.emitted_of_empty hv)).symm, s.source.drop s.boundary, ?_, ?_⟩
  · rw [← hbytes, List.take_append_drop]
  · rw [hlen]
    exact hclosed hst

/-- Every stream is divided, and `decodeStream` gives what the division says. -/
theorem decodeStream_framedAs (source : List Byte) :
    ∃ out e p, decodeStream source = some (out, e, p) ∧ FramedAs source out e p := by
  have hrst : Env.eager.noReset := ⟨nofun, rfl⟩
  obtain ⟨k, t, _, hrun, hend⟩ := everyStreamEnds.1 source Env.eager hrst rfl rfl
  have hon : t.OnRun source := run_keeps (fun _ _ h hstep => h.step hstep) (State.load_onRun hrst) hrun
  exact ⟨_, _, _, runIsDecodeStream source Env.eager k t hrst hrun hend, hon.framedAs hend⟩

/-! ### The three ways -/

theorem exists_endsAs_iff {pre source : List Byte} {e : StreamEnd} {p : Nat} :
    (∃ tail, source = pre ++ tail ∧ EndsAs pre.length tail e p) ↔
      (e = .halted ∧ source = pre ∧ p = source.length) ∨
      (∃ b ds, source = pre ++ b :: ds ∧ opcode b = 3#2 ∧ ds.length < operandBytes (lengthSelector b) ∧
        e = .faulted .truncatedStream pre.length ∧ p = source.length) ∨
      (∃ j rest, j.wellFormed = true ∧ instructionOf j = none ∧ source = pre ++ encode j ++ rest ∧
        e = .faulted .unrecognizedExtendedOpcode pre.length ∧ p = pre.length + (encode j).length) := by
  constructor
  · rintro ⟨tail, rfl, hend⟩
    cases hend with
    | halted => exact .inl ⟨rfl, List.append_nil _, by rw [List.append_nil]⟩
    | truncated ho hlen => exact .inr (.inl ⟨_, _, rfl, ho, hlen, rfl, by rw [List.length_append, List.length_cons]⟩)
    | unrecognized hw hv => exact .inr (.inr ⟨_, _, hw, hv, (List.append_assoc _ _ _).symm, rfl, rfl⟩)
  · rintro (⟨rfl, rfl, rfl⟩ | ⟨b, ds, rfl, ho, hlen, rfl, rfl⟩ | ⟨j, rest, hw, hv, rfl, rfl, rfl⟩)
    · exact ⟨[], (List.append_nil _).symm, .halted⟩
    · refine ⟨b :: ds, rfl, ?_⟩
      rw [List.length_append, List.length_cons]
      exact .truncated ho hlen
    · exact ⟨encode j ++ rest, List.append_assoc _ _ _, .unrecognized hw hv⟩

/-- Settles O50: `decodeStream` answers what a division of the stream says, and there is one division only. -/
theorem streamEndsAsFramed : Obligations.StreamEndsAsFramed := by
  refine ⟨fun source => ?_, fun source out e p => ?_⟩
  · obtain ⟨out, e, p, hdec, _⟩ := decodeStream_framedAs source
    rw [hdec]
    rfl
  · obtain ⟨out', e', p', hdec, hframed⟩ := decodeStream_framedAs source
    calc decodeStream source = some (out, e, p) ↔ FramedAs source out e p := by
          rw [hdec]
          constructor
          · intro h
            cases h
            exact hframed
          · exact fun h => congrArg some (hframed.unique h)
      _ ↔ _ := exists_congr fun is => and_congr_right fun _ => and_congr_right fun _ => exists_endsAs_iff

end Sys2Proof.Machine
end

section
/-! PROOFS. The base-instruction family: a base form is one byte, and the step that reads it takes that byte as an
opcode and emits what the form stands for. -/

namespace Sys2Proof.Machine

/-- The whole step of a base form: one byte is read as an opcode, and `v` is emitted (R85, R88). -/
theorem exec_of_base {i : Instr} {v : Instruction} (hi : extendedFields i = none) (hv : instructionOf i = some v)
    (s : State) : exec i s = .next (s.takeOpcode.emit v) := by
  rw [exec_eq, lastRead_of_base hi, hv]

/-- Settles O22: `decode` undoes `encode`, and the step emits MoveX with the sign-extended immediate. -/
theorem movexEffect : Obligations.MovexEffect := fun imm s =>
  ⟨fun rest => decodeEncode (.movex imm) rest rfl, exec_of_base (v := .moveX (imm.signExtend 32)) rfl rfl s⟩

/-- Settles O23: `decode` undoes `encode`, and the step emits MoveY with the sign-extended immediate. -/
theorem moveyEffect : Obligations.MoveyEffect := fun imm s =>
  ⟨fun rest => decodeEncode (.movey imm) rest rfl, exec_of_base (v := .moveY (imm.signExtend 32)) rfl rfl s⟩

/-- Settles O24: `decode` undoes `encode`, and the step emits Wait with the zero-extended immediate. -/
theorem waitEffect : Obligations.WaitEffect := fun imm s =>
  ⟨fun rest => decodeEncode (.wait imm) rest rfl, exec_of_base (v := .wait (imm.zeroExtend 32)) rfl rfl s⟩

end Sys2Proof.Machine
end

section
/-! PROOFS. The extended-instruction family: the step that reads an extended form's last byte, and a whole instruction
from its first byte to the state it leaves. -/

namespace Sys2Proof.Machine

/-! ### The step that dispatches -/

theorem takeLast_eq_lastByteRead (x : BitVec 4) (sel : BitVec 2) (raw : Word) (s : State) :
    s.takeLast x sel raw = lastByteRead x sel raw s := by
  rcases takeLast_cases x sel raw s with ⟨rfl, e⟩ | ⟨hsel, e⟩
  · exact e
  · rw [e, lastByteRead, if_neg hsel]; rfl

theorem lastRead_of_extended {i : Instr} {x : BitVec 4} {sel : BitVec 2} {raw : Word}
    (h : extendedFields i = some (x, sel, raw)) (s : State) : lastRead i s = lastByteRead x sel raw s := by
  rw [eq_extInstr h, lastRead_extInstr, takeLast_eq_lastByteRead]

/-- The escape byte's offset: that of the byte just read where it is the only one, the latched one otherwise. -/
theorem lastByteRead_instStart (x : BitVec 4) (sel : BitVec 2) (raw : Word) (s : State) :
    (lastByteRead x sel raw s).instStart = if sel = 0#2 then s.pos else s.instStart := by
  unfold lastByteRead
  split <;> rfl

/-- The dispatching step of a recognized extended form (R113). -/
theorem exec_of_recognized {i : Instr} {x : BitVec 4} {sel : BitVec 2} {raw : Word} {v : Instruction}
    (h : extendedFields i = some (x, sel, raw)) (hv : instructionOf i = some v) (s : State) :
    exec i s = .next (dispatched x sel raw v.kind v.operand s) := by
  rw [exec_eq, hv, lastRead_of_extended h]
  rfl

/-- The dispatching step of an unrecognized extended form (R112). -/
theorem exec_of_unrecognized {i : Instr} {x : BitVec 4} {sel : BitVec 2} {raw : Word}
    (h : extendedFields i = some (x, sel, raw)) (hv : instructionOf i = none) (s : State) :
    exec i s = .next { lastByteRead x sel raw s with
      st := .faulted, errKind := .unrecognizedExtendedOpcode,
      errOffset := if sel = 0#2 then s.pos else s.instStart } := by
  rw [exec_eq, hv, lastRead_of_extended h, lastByteRead_instStart]
  rfl

/-- The codec gives an operand that fits its bytes R80's closed form, at selector 0 too. -/
theorem operandValue_eq_twosComplement {sel : BitVec 2} {raw : Word} (h : operandFits sel raw = true) :
    operandValue sel raw = twosComplement (operandBytes sel) raw := by
  rw [operandValue, toSigned_of_lt (of_decide_eq_true h), BitVec.toInt_eq_toNat_cond, BitVec.toNat_ofNatLT,
    Nat.cast_pow, Nat.cast_ofNat]
  rfl

/-- Settles O25. -/
theorem extMovexEffect : Obligations.ExtMovexEffect := fun sel raw s h =>
  operandValue_eq_twosComplement h ▸ exec_of_recognized (v := .moveX (operandValue sel raw)) rfl rfl s

/-- Settles O26. -/
theorem extMoveyEffect : Obligations.ExtMoveyEffect := fun sel raw s h =>
  operandValue_eq_twosComplement h ▸ exec_of_recognized (v := .moveY (operandValue sel raw)) rfl rfl s

/-- Settles O27. -/
theorem extWaitEffect : Obligations.ExtWaitEffect := fun sel raw s h =>
  operandValue_eq_twosComplement h ▸ exec_of_recognized (v := .wait (operandValue sel raw)) rfl rfl s

/-- Settles O28: `Instruction.operand` is 0 for the three kinds. -/
theorem extPlainEffects : Obligations.ExtPlainEffects := fun _ _ s =>
  ⟨exec_of_recognized (v := .togglePen) rfl rfl s, exec_of_recognized (v := .clear) rfl rfl s,
    exec_of_recognized (v := .showAndWait) rfl rfl s⟩

/-- Settles O29. -/
theorem extSetColourEffect : Obligations.ExtSetColourEffect := fun sel raw s h =>
  operandValue_eq_twosComplement h ▸ exec_of_recognized (v := .setColour (operandValue sel raw)) rfl rfl s

/-- Settles O30. -/
theorem unrecognizedEffect : Obligations.UnrecognizedEffect := fun _ _ s =>
  ⟨exec_of_unrecognized rfl rfl s, fun _ => exec_of_unrecognized rfl rfl s⟩

/-! ### Operand bytes with more of the stream behind them -/

theorem State.shiftedBy_append_one (ds : List Byte) (d : Byte) (s : State) :
    s.shiftedBy (ds ++ [d]) = (s.shiftedBy ds).takeOperand (shiftIn (s.shiftedBy ds).acc d) := by
  have hr : s.remaining - BitVec.ofNat 3 (ds ++ [d]).length = s.remaining - BitVec.ofNat 3 ds.length - 1#3 := by
    rw [List.length_append, BitVec.ofNat_add, ← BitVec.sub_sub]; rfl
  rw [State.shiftedBy, hr, List.foldl_append, List.length_append, ← Nat.add_assoc]
  rfl

/-- One byte is owed after `ds` exactly where one more than `ds` was owed before. -/
theorem State.shiftedBy_remaining_eq_one_iff {s : State} {ds : List Byte} (h : ds.length ≤ s.remaining.toNat) :
    (s.shiftedBy ds).remaining = 1#3 ↔ s.remaining.toNat = ds.length + 1 := by
  show s.remaining - BitVec.ofNat 3 ds.length = 1#3 ↔ _
  bv_omega

theorem getElem?_of_drop_append {bs ds rest : List Byte} {pos : Nat} {d : Byte}
    (h : bs.drop pos = ds ++ d :: rest) : bs[pos + ds.length]? = some d := by
  refine (getElem?_of_drop (tail := rest) ?_).1
  rw [← List.drop_drop, h, List.drop_left]

/-- Under eager agents, operand bytes fewer than are owed are shifted in, whatever follows them in the stream. -/
theorem run_shiftedBy_append {s : State} {ds rest : List Byte} (hst : s.st = .operand) (hv : s.out.valid = false)
    (he : s.env = Env.eager) (hbytes : s.source.drop s.pos = ds ++ rest) (hr : ds.length < s.remaining.toNat) :
    core.run ds.length s = .next (s.shiftedBy ds) := by
  induction ds using List.reverseRecOn generalizing rest with
  | nil => simp [State.shiftedBy]
  | append_singleton ds d ih =>
    rw [List.length_append, List.length_singleton] at hr ⊢
    rw [List.append_assoc] at hbytes
    have henv : (s.shiftedBy ds).env = Env.eager := he
    have hmore : (s.shiftedBy ds).remaining ≠ 1#3 :=
      mt (State.shiftedBy_remaining_eq_one_iff (by omega)).1 (by omega)
    have hedge := edge_of_operand (takesEvent_of_eager henv hv (.inr hst)) hst (getElem?_of_drop_append hbytes)
    rw [tick_of_eager henv, operandByte_more hmore] at hedge
    rw [run_succ (ih hbytes (by omega)), step_of_moved hedge, State.shiftedBy_append_one]
    rfl

/-! ### A whole instruction, byte by byte -/

theorem wholeRead_of_extended {i : Instr} {x : BitVec 4} {sel : BitVec 2} {raw : Word}
    (h : extendedFields i = some (x, sel, raw)) (s : State) :
    wholeRead i s = { s with
      instStart := s.pos, pos := s.pos + (1 + operandBytes sel), extOp := x, byteCount := operandCount sel,
      remaining := 0#3, acc := raw } := by
  rw [wholeRead, (encode_of_extendedFields h).1, encodeExt_length, h]

/-- The last byte of `i`, whose first stands at `pos` in `s`, is read in `t`: the step there runs `i`, and leaves the
registers that reading the whole instruction gives. -/
structure ReadsLast (i : Instr) (s t : State) : Prop where
  step_eq : step t = exec i t
  lastRead_eq : lastRead i t = { wholeRead i s with st := t.st }

/-- The whole effect is what the step at the last byte answers: an emission, or the fault with the offset of the first
byte. -/
theorem ReadsLast.step_eq_wholeEffect {i : Instr} {s t : State} (h : ReadsLast i s t) :
    step t = .next (wholeEffect i s) := by
  have hstart : (wholeRead i s).instStart = s.pos := by unfold wholeRead; split <;> rfl
  rw [h.step_eq, exec_eq, h.lastRead_eq, wholeEffect]
  cases instructionOf i with
  | some v => rfl
  | none => simp only [State.raiseFault, hstart]

/-- The only byte of an instruction of one byte is a base byte, or an escape byte with selector 0. -/
theorem lastRead_eq_wholeRead {i : Instr} (hw : i.wellFormed = true) (hlen : (encode i).length = 1) (s : State) :
    lastRead i s = { wholeRead i s with st := s.st } := by
  cases h : extendedFields i with
  | none => rw [lastRead_of_base h, wholeRead, h, hlen]; rfl
  | some fields =>
    obtain ⟨x, sel, raw⟩ := fields
    obtain ⟨hencode, hfits⟩ := encode_of_extendedFields h
    obtain rfl : sel = 0#2 := (operandBytes_eq_zero_iff sel).1 (by rw [hencode, encodeExt_length] at hlen; omega)
    obtain rfl : raw = 0#32 := (readBigEndian_operand (hfits ▸ hw)).symm
    rw [lastRead_of_extended h, wholeRead_of_extended h]
    rfl

/-- An instruction of one byte is run by the step that reads it. -/
theorem readsLast_of_single {i : Instr} {s : State} {rest : List Byte} (hw : i.wellFormed = true) (hst : s.st = .fetch)
    (hv : s.out.valid = false) (he : s.env = Env.eager) (hbytes : s.source.drop s.pos = encode i ++ rest)
    (hlen : (encode i).length = 1) : ReadsLast i s s := by
  have hdec : decode (s.source.drop s.pos) = .ok (i, rest) := by rw [hbytes]; exact decodeEncode i rest hw
  obtain ⟨b, hp, hone⟩ := decode_singleton_of_drop hdec hlen
  have hstep := (stepRunsCompleted s (takesEvent_of_eager he hv (.inl hst))).1 b i hst hp hone
  rw [tick_of_eager he] at hstep
  exact ⟨hstep, lastRead_eq_wholeRead hw hlen s⟩

/-- The latched escape byte and all its operand bytes give the registers of the whole instruction. -/
theorem awaitOperand_shiftedBy_eq_wholeRead {i : Instr} {x : BitVec 4} {sel : BitVec 2} {ds : List Byte}
    (h : extendedFields i = some (x, sel, readBigEndian ds)) (hlen : ds.length = operandBytes sel) (s : State) :
    (s.awaitOperand x sel).shiftedBy ds = { wholeRead i s with st := .operand } := by
  rw [wholeRead_of_extended h, State.shiftedBy, State.awaitOperand_remaining, operandCount, hlen, BitVec.sub_self,
    State.awaitOperand_pos, Nat.add_assoc]
  rfl

/-- The last operand byte owed is the last byte of the instruction that the escape byte began. -/
theorem readsLast_of_operand {i : Instr} {s : State} {x : BitVec 4} {sel : BitVec 2} {ds : List Byte} {d : Byte}
    (hv : s.out.valid = false) (he : s.env = Env.eager) (hp : s.source[s.pos + 1 + ds.length]? = some d)
    (h : extendedFields i = some (x, sel, readBigEndian (ds ++ [d]))) (hlen : operandBytes sel = ds.length + 1) :
    ReadsLast i s ((s.awaitOperand x sel).shiftedBy ds) := by
  have hsel : sel ≠ 0#2 := fun e => by rw [e, operandBytes_zero] at hlen; omega
  have henv : ((s.awaitOperand x sel).shiftedBy ds).env = Env.eager := he
  have howed : (s.awaitOperand x sel).remaining.toNat = ds.length + 1 := (operandCount_toNat sel).trans hlen
  have hraw : shiftIn ((s.awaitOperand x sel).shiftedBy ds).acc d = readBigEndian (ds ++ [d]) :=
    (readBigEndian_append_one ds d).symm
  constructor
  · have hstep := (stepRunsCompleted _ (takesEvent_of_eager henv hv (.inr rfl))).2 d sel rfl
      ((State.shiftedBy_remaining_eq_one_iff (by omega)).2 howed) hsel rfl hp
    rw [tick_of_eager henv, hraw] at hstep
    rw [hstep, eq_extInstr h]
    rfl
  · calc lastRead i ((s.awaitOperand x sel).shiftedBy ds)
        = ((s.awaitOperand x sel).shiftedBy ds).takeOperand (readBigEndian (ds ++ [d])) := by
          rw [eq_extInstr h, lastRead_extInstr, State.takeLast, if_neg hsel]
      _ = (s.awaitOperand x sel).shiftedBy (ds ++ [d]) := by rw [State.shiftedBy_append_one, hraw]
      _ = { wholeRead i s with st := .operand } :=
          awaitOperand_shiftedBy_eq_wholeRead h (by rw [hlen, List.length_append]; rfl) s

/-- Under eager agents the machine reads every byte of an instruction but the last, one at each step. -/
theorem run_to_last {i : Instr} {s : State} {rest : List Byte} (hw : i.wellFormed = true) (hst : s.st = .fetch)
    (hv : s.out.valid = false) (he : s.env = Env.eager) (hbytes : s.source.drop s.pos = encode i ++ rest) :
    ∃ k t, (encode i).length = k + 1 ∧ core.run k s = .next t ∧ ReadsLast i s t := by
  have hsingle (hlen : (encode i).length = 1) : ∃ k t, (encode i).length = k + 1 ∧ core.run k s = .next t ∧
      ReadsLast i s t := ⟨0, s, hlen, rfl, readsLast_of_single hw hst hv he hbytes hlen⟩
  cases h : extendedFields i with
  | none =>
    obtain ⟨b, hencode, _⟩ := encode_base h
    exact hsingle (by rw [hencode]; rfl)
  | some fields =>
    obtain ⟨x, sel, raw⟩ := fields
    obtain ⟨b, bs, hencode, ho, rfl, rfl, hlen, rfl⟩ := encode_extended h hw
    rcases List.eq_nil_or_concat' bs with rfl | ⟨ds, d, rfl⟩
    · exact hsingle (by rw [hencode]; rfl)
    rw [hencode, List.cons_append, List.append_assoc] at hbytes
    rw [List.length_append, List.length_singleton] at hlen
    obtain ⟨hp, hds⟩ := getElem?_of_drop hbytes
    have hsel : lengthSelector b ≠ 0#2 := fun e => by rw [e, operandBytes_zero] at hlen; omega
    have hedge := edge_of_fetch (takesEvent_of_eager he hv (.inl hst)) hst hp
    rw [tick_of_eager he, fetchByte_escape ho hsel] at hedge
    refine ⟨ds.length + 1, (s.awaitOperand (extOpOf b) (lengthSelector b)).shiftedBy ds, ?_, ?_, ?_⟩
    · rw [hencode, List.length_cons, List.length_append, List.length_singleton]
    · rw [run_of_step _ (step_of_moved hedge)]
      exact run_shiftedBy_append rfl hv he hds (by rw [State.awaitOperand_remaining, operandCount_toNat]; omega)
    · exact readsLast_of_operand hv he (getElem?_of_drop_append hds) h hlen.symm

/-- Settles O45: one step for each byte before the last, and then the step that reads the last. -/
theorem wholeInstruction : Obligations.WholeInstruction := by
  intro i s rest hw hst hv he hbytes
  obtain ⟨k, t, hlen, hrun, hlast⟩ := run_to_last hw hst hv he hbytes
  rw [hlen, Nat.add_sub_cancel]
  exact ⟨⟨t, hrun, hlast.step_eq⟩, (run_succ hrun).trans hlast.step_eq_wholeEffect⟩

end Sys2Proof.Machine
end

section
/-! PROOFS. The reference consumer family: what one Instruction does, what a list without MoveY leaves alone, and the
order of replay. -/

namespace Sys2Proof.Machine

/-- Settles O51: the reducer at each kind of Instruction is its `apply` operation written out. -/
theorem consumerEffects : Obligations.ConsumerEffects :=
  fun _ _ => ⟨rfl, rfl, rfl, rfl, rfl, rfl, rfl⟩

/-! ### Replay, by the shape of the list -/

@[simp] theorem replay_nil (p : PlotterState) : replay p [] = (p, []) := rfl

@[simp] theorem replay_cons (p : PlotterState) (i : Instruction) (is : List Instruction) :
    replay p (i :: is) =
      ((replay (applyInstruction p i).1 is).1, (applyInstruction p i).2 ++ (replay (applyInstruction p i).1 is).2) := rfl

/-- Settles O53, by induction on the first part: the effects of its head stand before those of all that follows. -/
theorem replayInOrder : Obligations.ReplayInOrder := by
  intro vs ws p
  induction vs generalizing p with
  | nil => rfl
  | cons v vs ih => rw [List.cons_append, replay_cons, replay_cons, ih, List.append_assoc]

/-! ### Only MoveY uses the anchor -/

/-- R117 alone writes the anchor: every other kind leaves it. -/
theorem applyInstruction_last {i : Instruction} (h : ∀ d, i ≠ .moveY d) (p : PlotterState) :
    (applyInstruction p i).1.last = p.last := by
  cases i with
  | moveY d => exact absurd rfl (h d)
  | moveX _ | wait _ | togglePen | clear | showAndWait | setColour _ => rfl

/-- R117 alone issues a line: an Instruction that requests one is a MoveY. -/
theorem eq_moveY_of_drawLine_mem {i : Instruction} {p : PlotterState} {x0 y0 x1 y1 : Int}
    (h : Effect.drawLine x0 y0 x1 y1 ∈ (applyInstruction p i).2) : ∃ d, i = .moveY d := by
  cases i with
  | moveY d => exact ⟨d, rfl⟩
  | moveX _ | togglePen => exact absurd h List.not_mem_nil
  | wait _ | clear | showAndWait | setColour _ => exact Effect.noConfusion (List.mem_singleton.1 h)

/-- Settles O52, by induction on the list: neither its head nor the rest draws or moves the anchor. -/
theorem onlyMoveYDraws : Obligations.OnlyMoveYDraws := by
  intro vs p hvs
  induction vs generalizing p with
  | nil => simp
  | cons v vs ih =>
    have hv : ∀ d, v ≠ .moveY d := fun d hd => hvs d (hd ▸ List.mem_cons_self)
    obtain ⟨hlast, hdraw⟩ := ih (applyInstruction p v).1 fun d hd => hvs d (List.mem_cons_of_mem v hd)
    rw [replay_cons]
    refine ⟨hlast.trans (applyInstruction_last hv p), fun x0 y0 x1 y1 hmem => ?_⟩
    rcases List.mem_append.1 hmem with hnow | hlater
    · obtain ⟨d, hd⟩ := eq_moveY_of_drawLine_mem hnow
      exact hv d hd
    · exact hdraw x0 y0 x1 y1 hlater

end Sys2Proof.Machine
end

section
/-! PROOFS. Reset: what an edge with `rst` asserted comes to, and that nothing else leaves HALTED or FAULTED. -/

namespace Sys2Proof.Machine

/-- An edge with `rst` asserted is a reset, whatever the block was doing (R140, R141). -/
theorem edge_of_reset {s : State} {stream : List Byte} (hr : s.env.now.rst = some stream) :
    s.edge = .moved (s.tick.restart stream) := by
  simp only [State.edge, hr]

/-- A reset keeps nothing of the state but the schedule: it begins a run of `stream` (R140, R143). -/
theorem State.restart_eq_load (s : State) (stream : List Byte) : s.restart stream = State.load stream s.env := rfl

/-- Without reset, a step from HALTED or FAULTED stays there (R93). -/
theorem step_st_of_ended {s t : State} (hst : s.st = .halted ∨ s.st = .faulted) (hrst : s.env.now.rst = none)
    (hstep : step s = .next t) : t.st = s.st := by
  obtain ⟨u, hu, hregs, _⟩ := ((terminalAbsorbing s hst).2 hrst).2
  obtain rfl : t = u := Host.Outcome.next.inj (hstep.symm.trans hu)
  exact hregs.1

/-- Settles O7: a reset is a step of its own, and without it HALTED and FAULTED absorb. -/
theorem resetFromEveryState : Obligations.ResetFromEveryState := by
  refine ⟨fun s stream hr => ?_, fun s t hst hstep hne => ?_⟩
  · rw [step_of_moved (edge_of_reset hr), State.restart_eq_load, State.tick_env]
  · cases hrst : s.env.now.rst with
    | some stream => exact ⟨stream, rfl⟩
    | none => exact absurd (step_st_of_ended hst hrst hstep) hne

end Sys2Proof.Machine
end
